-- ==== Sys2Proof/Word.lean ====
section
/-! DEFINITION. The word sizes of 00_scope.md R5, and the plain-data form in which the model holds arrays. -/

namespace Sys2Proof

/-- A machine word: an instruction, a stack slot, a LOAD or STORE value (R5). -/
abbrev Word := BitVec 64

/-- One byte of memory; also the width of the opcode field (R5). -/
abbrev Byte := BitVec 8

/-- The 56-bit operand field of an instruction word (R5). -/
abbrev Operand := BitVec 56

/-- An array of `w`-bit entries as plain data: (index, entry) pairs, indices strictly rising, no entry
equal to `Cells.unlisted` (the form is `Cells.wf`, WellFormed.lean). -/
abbrev Cells (w : Nat) := List (Nat × BitVec w)

/-- What an index that is not listed reads as: zero. For memory this is the default `INIT_MEM` of
00_scope.md R6 (DESIGN CHOICE, unsafe: assumption log 4); for the operand stack it is the model's value of a
slot that nothing has written (DESIGN CHOICE, unsafe: assumption log 6). -/
abbrev Cells.unlisted (w : Nat) : BitVec w := 0#w

end Sys2Proof
end

