-- ==== Sys2Proof/Config.lean ====
section
/-! DEFINITION. What an implementation fixes (00_scope.md R6, R37), and the one free value (the TIME draw). -/

namespace Sys2Proof

/-- The 42 mnemonics, in the order of the spec's table (30_encoding.md R76). -/
inductive Mnemonic where
  | push | pop | add | sub | mul | div | mod | and | or | xor | not
  | inc | dec | shl | shr | dup | swap | eq | lt | gt | lte | gte
  | load | store | load8 | store8 | jmp | jz | jnz | jn | jp | je | jne
  | jlt | jgt | jle | jge | time | space | call | ret | hlt
  deriving DecidableEq, Repr

/-- Every mnemonic, once, in the table's order. -/
def Mnemonic.all : List Mnemonic :=
  [.push, .pop, .add, .sub, .mul, .div, .mod, .and, .or, .xor, .not,
   .inc, .dec, .shl, .shr, .dup, .swap, .eq, .lt, .gt, .lte, .gte,
   .load, .store, .load8, .store8, .jmp, .jz, .jnz, .jn, .jp, .je, .jne,
   .jlt, .jgt, .jle, .jge, .time, .space, .call, .ret, .hlt]

/-- The position of a mnemonic in the table of R76. -/
def Mnemonic.index : Mnemonic → Fin 42
  | .push => 0 | .pop => 1 | .add => 2 | .sub => 3 | .mul => 4 | .div => 5 | .mod => 6
  | .and => 7 | .or => 8 | .xor => 9 | .not => 10 | .inc => 11 | .dec => 12 | .shl => 13
  | .shr => 14 | .dup => 15 | .swap => 16 | .eq => 17 | .lt => 18 | .gt => 19 | .lte => 20
  | .gte => 21 | .load => 22 | .store => 23 | .load8 => 24 | .store8 => 25 | .jmp => 26 | .jz => 27
  | .jnz => 28 | .jn => 29 | .jp => 30 | .je => 31 | .jne => 32 | .jlt => 33 | .jgt => 34
  | .jle => 35 | .jge => 36 | .time => 37 | .space => 38 | .call => 39 | .ret => 40 | .hlt => 41

/-- OPCODE_OF (R6, R76): the opcode byte of each mnemonic, in the table's order. -/
abbrev OpcodeMap := Vector Byte 42

/-- OPCODE_OF(m). -/
def OpcodeMap.byteOf (o : OpcodeMap) (m : Mnemonic) : Byte := o[m.index]

/-- UNKNOWN_OPCODE_POLICY (R6, 49_halt.md R201). -/
inductive UnknownPolicy where
  | halt | fault
  deriving DecidableEq, Repr

/-- SHIFT_MODE (R6, 43_bitwise.md R134). -/
inductive ShiftMode where
  | full | masked6
  deriving DecidableEq, Repr

/-- The parameters of 00_scope.md R6, fixed from construction on (R37). -/
structure Config where
  /-- `M`: total memory size in bytes. -/
  memSize : Nat
  /-- `ROM_SIZE` in bytes. -/
  romSize : Nat
  /-- `CODE_SIZE` in bytes. -/
  codeSize : Nat
  /-- `DATA_SIZE`: minimum Data segment size in bytes. -/
  dataSize : Nat
  /-- `C`: operand stack capacity in 64-bit words. -/
  stackCap : Nat
  /-- `OPCODE_OF`. -/
  opcodes : OpcodeMap
  /-- `UNKNOWN_OPCODE_POLICY`. -/
  unknownPolicy : UnknownPolicy
  /-- `SHIFT_MODE`. -/
  shiftMode : ShiftMode
  /-- `INIT_MEM` over the offsets below `M`; an unlisted offset is initially zero. -/
  initMem : Cells 8
  deriving DecidableEq, Repr

/-- The Data-segment base (R6, derived constants; R50). -/
def Config.dataBase (c : Config) : Nat := c.romSize + c.codeSize

/-- The program capacity in words (R6, D23). -/
def Config.romWords (c : Config) : Nat := c.romSize / 8

/-- The smallest memory that `construct` accepts (R50, R233). -/
def Config.segmentSum (c : Config) : Nat := c.romSize + c.codeSize + c.dataSize

/-- The free value of TIME: the wall clock is outside the block, and the `n`-th draw is any 64-bit value, under no
law (47_env.md R180, D17). Nothing can evaluate it (assumption log 7). -/
opaque Config.wallClock : Nat → Word

end Sys2Proof
end

