-- ==== Sys2Proof/Syntax.lean ====
section
/-! DEFINITION. The instructions: one constructor per row of spec/opcode_table.json. -/

namespace Sys2Proof

/-- An instruction. Only PUSH and CALL read the operand field, every other instruction ignores all 56 bits
(30_encoding.md R74), so only those two carry it (assumption log 19). -/
inductive Instr where
  /-- PUSH imm (R110) -/
  | push (imm : Operand)
  /-- POP (R111) -/
  | pop
  /-- ADD (R120) -/
  | add
  /-- SUB (R121) -/
  | sub
  /-- MUL (R122) -/
  | mul
  /-- DIV (R123) -/
  | div
  /-- MOD (R124) -/
  | mod
  /-- AND (R130) -/
  | and
  /-- OR (R131) -/
  | or
  /-- XOR (R132) -/
  | xor
  /-- NOT (R133) -/
  | not
  /-- INC (R125) -/
  | inc
  /-- DEC (R126) -/
  | dec
  /-- SHL (R135) -/
  | shl
  /-- SHR (R136) -/
  | shr
  /-- DUP (R112) -/
  | dup
  /-- SWAP (R113) -/
  | swap
  /-- EQ (R140) -/
  | eq
  /-- LT (R141) -/
  | lt
  /-- GT (R142) -/
  | gt
  /-- LTE (R143) -/
  | lte
  /-- GTE (R144) -/
  | gte
  /-- LOAD (R150) -/
  | load
  /-- STORE (R151) -/
  | store
  /-- LOAD8 (R152) -/
  | load8
  /-- STORE8 (R153) -/
  | store8
  /-- JMP (R160) -/
  | jmp
  /-- JZ (R161) -/
  | jz
  /-- JNZ (R162) -/
  | jnz
  /-- JN (R163) -/
  | jn
  /-- JP (R164) -/
  | jp
  /-- JE (R165) -/
  | je
  /-- JNE (R166) -/
  | jne
  /-- JLT (R167) -/
  | jlt
  /-- JGT (R168) -/
  | jgt
  /-- JLE (R169) -/
  | jle
  /-- JGE (R170) -/
  | jge
  /-- TIME (R180) -/
  | time
  /-- SPACE (R181) -/
  | space
  /-- CALL (R186) -/
  | call (target : Operand)
  /-- RET (R187) -/
  | ret
  /-- HLT (R200) -/
  | hlt
  /-- The row `(unassigned)`: a word whose opcode byte has no handler (R77, R201) -/
  | unassigned (opcode : Byte)
  deriving DecidableEq, Repr

/-- The mnemonic of an instruction; a word with no handler has none (R77). -/
def Instr.mnemonic : Instr → Option Mnemonic
  | .push _ => some .push
  | .pop => some .pop
  | .add => some .add
  | .sub => some .sub
  | .mul => some .mul
  | .div => some .div
  | .mod => some .mod
  | .and => some .and
  | .or => some .or
  | .xor => some .xor
  | .not => some .not
  | .inc => some .inc
  | .dec => some .dec
  | .shl => some .shl
  | .shr => some .shr
  | .dup => some .dup
  | .swap => some .swap
  | .eq => some .eq
  | .lt => some .lt
  | .gt => some .gt
  | .lte => some .lte
  | .gte => some .gte
  | .load => some .load
  | .store => some .store
  | .load8 => some .load8
  | .store8 => some .store8
  | .jmp => some .jmp
  | .jz => some .jz
  | .jnz => some .jnz
  | .jn => some .jn
  | .jp => some .jp
  | .je => some .je
  | .jne => some .jne
  | .jlt => some .jlt
  | .jgt => some .jgt
  | .jle => some .jle
  | .jge => some .jge
  | .time => some .time
  | .space => some .space
  | .call _ => some .call
  | .ret => some .ret
  | .hlt => some .hlt
  | .unassigned _ => none

/-- The operand field an instruction needs: its own operand, or zero where the field is ignored (R74). -/
def Instr.operand : Instr → Operand
  | .push imm => imm
  | .call target => target
  | .pop => 0
  | .add => 0
  | .sub => 0
  | .mul => 0
  | .div => 0
  | .mod => 0
  | .and => 0
  | .or => 0
  | .xor => 0
  | .not => 0
  | .inc => 0
  | .dec => 0
  | .shl => 0
  | .shr => 0
  | .dup => 0
  | .swap => 0
  | .eq => 0
  | .lt => 0
  | .gt => 0
  | .lte => 0
  | .gte => 0
  | .load => 0
  | .store => 0
  | .load8 => 0
  | .store8 => 0
  | .jmp => 0
  | .jz => 0
  | .jnz => 0
  | .jn => 0
  | .jp => 0
  | .je => 0
  | .jne => 0
  | .jlt => 0
  | .jgt => 0
  | .jle => 0
  | .jge => 0
  | .time => 0
  | .space => 0
  | .ret => 0
  | .hlt => 0
  | .unassigned _ => 0

end Sys2Proof
end

