-- ==== Sys2Proof/WellFormed.lean ====
section
/-! DEFINITION. When an instruction, an array in canonical form and a configuration are well formed. -/

namespace Sys2Proof

/-- The only check on an instruction: an `(unassigned)` word's opcode byte really has no handler (R77). Every operand
value is legal (R78). -/
def Instr.wf (o : OpcodeMap) : Instr → Bool
  | .unassigned b => Mnemonic.all.all fun m => o.byteOf m != b
  | .push _ => true
  | .pop => true
  | .add => true
  | .sub => true
  | .mul => true
  | .div => true
  | .mod => true
  | .and => true
  | .or => true
  | .xor => true
  | .not => true
  | .inc => true
  | .dec => true
  | .shl => true
  | .shr => true
  | .dup => true
  | .swap => true
  | .eq => true
  | .lt => true
  | .gt => true
  | .lte => true
  | .gte => true
  | .load => true
  | .store => true
  | .load8 => true
  | .store8 => true
  | .jmp => true
  | .jz => true
  | .jnz => true
  | .jn => true
  | .jp => true
  | .je => true
  | .jne => true
  | .jlt => true
  | .jgt => true
  | .jle => true
  | .jge => true
  | .time => true
  | .space => true
  | .call _ => true
  | .ret => true
  | .hlt => true

/-- The canonical form above a bound: indices rise strictly from `lo`, and no entry equals what an unlisted index
reads as. -/
def Cells.wfFrom {w : Nat} : Nat → Cells w → Bool
  | _, [] => true
  | lo, (i, v) :: rest => decide (lo ≤ i) && (v != Cells.unlisted w) && Cells.wfFrom (i + 1) rest

/-- The canonical form: equal contents are equal data. -/
def Cells.wf {w : Nat} (m : Cells w) : Bool := Cells.wfFrom 0 m

/-- Every listed index lies below `n`. -/
def Cells.below {w : Nat} (n : Nat) (m : Cells w) : Bool := m.all fun c => decide (c.1 < n)

/-- OPCODE_OF is injective (R6, R76). -/
abbrev OpcodeMap.Injective (o : OpcodeMap) : Prop := ∀ m n : Mnemonic, o.byteOf m = o.byteOf n → m = n

/-- The constraints on a configuration: those of R6 (with D2), `INIT_MEM` given for the bytes of memory, and two that
the 64-bit slots force: a saved `base` (R186) and `dataBase` (R181) fit in a word (DEDUCED: logs 16, 17). -/
structure Config.WellFormed (c : Config) : Prop where
  romAligned : c.romSize % 8 = 0
  codeAligned : c.codeSize % 8 = 0
  fits : c.segmentSum ≤ c.memSize
  capPos : 1 ≤ c.stackCap
  capWord : c.stackCap < 2 ^ 64
  dataBaseWord : c.dataBase < 2 ^ 64
  opcodesInjective : c.opcodes.Injective
  initWf : Cells.wf c.initMem = true
  initBelow : Cells.below c.memSize c.initMem = true

end Sys2Proof
end

