-- ==== Sys2Proof/Decode.lean ====
section
/-! DEFINITION. The instruction codec: bytes and words, the handler array, the decoder, and the encoder after it. -/

namespace Sys2Proof

/-- The number whose base-256 digits are `bs`, least significant first: the sum of R57. -/
def ofBytesLE : List Byte → Nat
  | [] => 0
  | b :: bs => b.toNat + 256 * ofBytesLE bs

/-- The low `n` bytes of a number, least significant first. -/
def toBytesLE : Nat → Nat → List Byte
  | 0, _ => []
  | n + 1, v => BitVec.ofNat 8 v :: toBytesLE n (v / 256)

/-- The 8 big-endian bytes of a word, as the program image holds it (20_memory.md R54). -/
def bytesBE (w : Word) : List Byte := (toBytesLE 8 w.toNat).reverse

/-- The word that 8 big-endian bytes hold (R55). -/
def wordBE (bs : List Byte) : Word := BitVec.ofNat 64 (ofBytesLE bs.reverse)

/-- The two fields of format F0 (30_encoding.md R70). -/
structure Fields where
  opcode : Byte
  operand : Operand
  deriving DecidableEq, Repr

/-- The field split of R72: opcode in bits 63:56, operand in bits 55:0. -/
def splitWord (w : Word) : Fields := ⟨w.extractLsb' 56 8, w.extractLsb' 0 56⟩

/-- The operand as a handler sees it: zero-extended, never sign-extended (R72, R75). -/
def zextOperand (p : Operand) : Word := p.setWidth 64

/-- The field encoder of R73: `op * 2^56 + (v mod 2^56)` for a 64-bit operand value `v`. -/
def packFields (op : Byte) (v : Word) : Word := op ++ v.setWidth 56

/-- The default OPCODE_OF: 0x01 to 0x2A in the table's order, 0x00 unassigned (R76, D1). DESIGN CHOICE of the spec,
unsafe for claims about binary images: assumption log 3. -/
def OpcodeMap.standard : OpcodeMap :=
  #v[0x01, 0x02, 0x03, 0x04, 0x05, 0x06, 0x07, 0x08, 0x09, 0x0A, 0x0B, 0x0C, 0x0D, 0x0E,
     0x0F, 0x10, 0x11, 0x12, 0x13, 0x14, 0x15, 0x16, 0x17, 0x18, 0x19, 0x1A, 0x1B, 0x1C,
     0x1D, 0x1E, 0x1F, 0x20, 0x21, 0x22, 0x23, 0x24, 0x25, 0x26, 0x27, 0x28, 0x29, 0x2A]

/-- The handler array H of 40_cycle.md R95: the mnemonic whose opcode byte this is, or none. -/
def handler (o : OpcodeMap) (b : Byte) : Option Mnemonic := Mnemonic.all.find? fun m => o.byteOf m == b

/-- The instruction of a mnemonic with the operand field `p`; only PUSH and CALL keep it (R74, R94). -/
def Mnemonic.toInstr (p : Operand) : Mnemonic → Instr
  | .push => .push p
  | .call => .call p
  | .pop => .pop
  | .add => .add
  | .sub => .sub
  | .mul => .mul
  | .div => .div
  | .mod => .mod
  | .and => .and
  | .or => .or
  | .xor => .xor
  | .not => .not
  | .inc => .inc
  | .dec => .dec
  | .shl => .shl
  | .shr => .shr
  | .dup => .dup
  | .swap => .swap
  | .eq => .eq
  | .lt => .lt
  | .gt => .gt
  | .lte => .lte
  | .gte => .gte
  | .load => .load
  | .store => .store
  | .load8 => .load8
  | .store8 => .store8
  | .jmp => .jmp
  | .jz => .jz
  | .jnz => .jnz
  | .jn => .jn
  | .jp => .jp
  | .je => .je
  | .jne => .jne
  | .jlt => .jlt
  | .jgt => .jgt
  | .jle => .jle
  | .jge => .jge
  | .time => .time
  | .space => .space
  | .ret => .ret
  | .hlt => .hlt

/-- The decoder on a word: total, every word is an instruction or the `(unassigned)` row (R72, R77). -/
def decodeWord (o : OpcodeMap) (w : Word) : Instr :=
  match handler o (splitWord w).opcode with
  | some m => m.toInstr (splitWord w).operand
  | none => .unassigned (splitWord w).opcode

/-- Why a list of bytes holds no instruction. -/
inductive DecodeError where
  /-- Fewer than the 8 bytes that every instruction has (R71). -/
  | truncated
  deriving DecidableEq, Repr

/-- The decoder on bytes: one big-endian word (R55, R71), and the bytes after it. -/
def decodeBytes (o : OpcodeMap) (bs : List Byte) : Except DecodeError (Instr × List Byte) :=
  if bs.length < 8 then .error .truncated else .ok (decodeWord o (wordBE (bs.take 8)), bs.drop 8)

/-- The opcode byte of an instruction. -/
def Instr.opcodeByte (o : OpcodeMap) : Instr → Byte
  | .unassigned b => b
  | .push _ => o.byteOf .push
  | .pop => o.byteOf .pop
  | .add => o.byteOf .add
  | .sub => o.byteOf .sub
  | .mul => o.byteOf .mul
  | .div => o.byteOf .div
  | .mod => o.byteOf .mod
  | .and => o.byteOf .and
  | .or => o.byteOf .or
  | .xor => o.byteOf .xor
  | .not => o.byteOf .not
  | .inc => o.byteOf .inc
  | .dec => o.byteOf .dec
  | .shl => o.byteOf .shl
  | .shr => o.byteOf .shr
  | .dup => o.byteOf .dup
  | .swap => o.byteOf .swap
  | .eq => o.byteOf .eq
  | .lt => o.byteOf .lt
  | .gt => o.byteOf .gt
  | .lte => o.byteOf .lte
  | .gte => o.byteOf .gte
  | .load => o.byteOf .load
  | .store => o.byteOf .store
  | .load8 => o.byteOf .load8
  | .store8 => o.byteOf .store8
  | .jmp => o.byteOf .jmp
  | .jz => o.byteOf .jz
  | .jnz => o.byteOf .jnz
  | .jn => o.byteOf .jn
  | .jp => o.byteOf .jp
  | .je => o.byteOf .je
  | .jne => o.byteOf .jne
  | .jlt => o.byteOf .jlt
  | .jgt => o.byteOf .jgt
  | .jle => o.byteOf .jle
  | .jge => o.byteOf .jge
  | .time => o.byteOf .time
  | .space => o.byteOf .space
  | .call _ => o.byteOf .call
  | .ret => o.byteOf .ret
  | .hlt => o.byteOf .hlt

/-- The encoder: the one word of an instruction (R73). -/
def encode (o : OpcodeMap) (i : Instr) : Word := packFields (i.opcodeByte o) (zextOperand i.operand)

/-- The 8 bytes of an instruction as memory holds them (R54). -/
def encodeBytes (o : OpcodeMap) (i : Instr) : List Byte := bytesBE (encode o i)

/-- What the decoder reads, under the default OPCODE_OF, from the instruction word `w` of a table row of `nbits` bits:
the word is laid out as its 8 big-endian bytes. -/
def decodeTableWord (nbits w : Nat) : Option Instr :=
  match decodeBytes OpcodeMap.standard (bytesBE (BitVec.ofNat 64 (w % 2 ^ nbits))) with
  | .ok (i, _) => some i
  | .error _ => none

end Sys2Proof
end

