-- ==== Sys2Proof/Machine/Flags.lean ====
section
/-! DEFINITION. The core has no flags (10_state.md R27). What stands here is the conditions that comparisons push and
branches test. Every comparison is unsigned. -/

namespace Sys2Proof.Machine

/-- `bool(c)`: 1 if the condition holds, else 0 (00_scope.md, notation). -/
def boolWord (c : Bool) : Word := if c then 1 else 0

/-- `a = 0` (46_branch.md R161, R162). -/
def isZero (a : Word) : Bool := a == 0

/-- JN's bit test: `a[63] = 1 and a[62:0] != 0`. It is not "strictly negative" for `2^63` (R163, 90_conflicts.md C2). -/
def isNegative (a : Word) : Bool := a.extractLsb' 63 1 == 1 && a.extractLsb' 0 63 != 0

/-- JP's bit test: `a[63] = 0 and a[62:0] != 0` (R164). -/
def isPositive (a : Word) : Bool := a.extractLsb' 63 1 == 0 && a.extractLsb' 0 63 != 0

/-- `a = b` on all 64 bits (44_compare.md R140). -/
def cmpEq (a b : Word) : Bool := a == b

/-- `a < b`, unsigned (R141). -/
def cmpLt (a b : Word) : Bool := decide (a.toNat < b.toNat)

/-- `a > b`, unsigned (R142). -/
def cmpGt (a b : Word) : Bool := decide (b.toNat < a.toNat)

/-- `a <= b`, unsigned (R143). -/
def cmpLe (a b : Word) : Bool := decide (a.toNat ≤ b.toNat)

/-- `a >= b`, unsigned (R144). -/
def cmpGe (a b : Word) : Bool := decide (b.toNat ≤ a.toNat)

end Sys2Proof.Machine
end

