-- ==== Sys2Proof/Machine/Defaults.lean ====
section
/-! DEFINITION. The configuration that `State.reset` carries: the default column of 00_scope.md R6. -/

namespace Sys2Proof

/-- The defaults of R6 (D2, D3, D4, D1, D9, D13, D11). DESIGN CHOICE, unsafe only for claims about the reset
configuration: assumption log 2. Every other statement ranges over all configurations (log 1). -/
def Config.standard : Config where
  memSize := 4096
  romSize := 1024
  codeSize := 1024
  dataSize := 1024
  stackCap := 20000
  opcodes := OpcodeMap.standard
  unknownPolicy := .halt
  shiftMode := .full
  initMem := []

end Sys2Proof
end

