-- ==== Sys2Proof/Machine/Memory.lean ====
section
/-! DEFINITION. Arrays as canonical cell lists: reading and writing one entry, and the byte accesses of memory. -/

namespace Sys2Proof

/-- The entry at index `k`. -/
def Cells.read {w : Nat} : Cells w → Nat → BitVec w
  | [], _ => Cells.unlisted w
  | (i, v) :: rest, k => if i = k then v else Cells.read rest k

/-- Drop what is listed at index `k`. -/
def Cells.erase {w : Nat} (m : Cells w) (k : Nat) : Cells w := m.filter fun c => c.1 != k

/-- List `v` at index `k`, in front of the first larger index. -/
def Cells.insert {w : Nat} : Cells w → Nat → BitVec w → Cells w
  | [], k, v => [(k, v)]
  | (i, x) :: rest, k, v => if k < i then (k, v) :: (i, x) :: rest else (i, x) :: Cells.insert rest k v

/-- Write `v` at index `k`, keeping the canonical form: an entry equal to what an unlisted index reads as is not
listed. -/
def Cells.write {w : Nat} (m : Cells w) (k : Nat) (v : BitVec w) : Cells w :=
  if v = Cells.unlisted w then Cells.erase m k else Cells.insert (Cells.erase m k) k v

namespace Machine

/-- The flat memory `mem` (20_memory.md R50): a list of `Host.Cell`s, keyed by byte offset. -/
abbrev Memory := Cells 8

/-- The operand stack array `S` (10_state.md R25), keyed by slot index. -/
abbrev Slots := Cells 64

/-- The canonical form of a memory. -/
abbrev Memory.wf (m : Memory) : Bool := Cells.wf m

/-- The `n` bytes from offset `a` upward. -/
def Memory.readBytes (m : Memory) (a : Nat) : Nat → List Byte
  | 0 => []
  | n + 1 => Cells.read m a :: Memory.readBytes m (a + 1) n

/-- Write a list of bytes from offset `a` upward. -/
def Memory.writeBytes (m : Memory) (a : Nat) : List Byte → Memory
  | [] => m
  | b :: bs => Memory.writeBytes (Cells.write m a b) (a + 1) bs

/-- MemRead(addr, n): the little-endian read, zero-extended to a word (R57). -/
def memRead (m : Memory) (addr n : Nat) : Word := BitVec.ofNat 64 (ofBytesLE (Memory.readBytes m addr n))

/-- MemWrite(addr, n, v): the little-endian write of the low `n` bytes of `v` (R57). -/
def memWrite (m : Memory) (addr n : Nat) (v : Word) : Memory := Memory.writeBytes m addr (toBytesLE n v.toNat)

/-- FetchRead(addr): the big-endian read of 8 bytes (R55; the winner of 90_conflicts.md C1). -/
def fetchRead (m : Memory) (addr : Nat) : Word := wordBE (Memory.readBytes m addr 8)

/-- Write one program word big-endian at a byte offset (R54). -/
def storeProgramWord (m : Memory) (addr : Nat) (w : Word) : Memory := Memory.writeBytes m addr (bytesBE w)

/-- The loader: word `i` of the list goes big-endian to bytes `[8i, 8i+8)`, counting from word index `first`
(R54, 70_reset_and_hazards.md R241 step 1). -/
def loadImage (first : Nat) : List Word → Memory → Memory
  | [], m => m
  | w :: ws, m => loadImage (first + 1) ws (storeProgramWord m (8 * first) w)

end Machine

end Sys2Proof
end

