-- ==== Sys2Proof/Machine/State.lean ====
section
/-! DEFINITION. The state of the machine, its stops, and the machine at the start of a run. -/

namespace Sys2Proof.Machine

/-- Why a core is Halted (10_state.md R24). -/
inductive HaltReason where
  | hlt | unknownOpcode
  deriving DecidableEq, Repr

/-- The fault kinds of 60_exceptions.md R210, each with the info that R210 records beside `faultIp`. -/
inductive FaultKind where
  | stackUnderflow
  | stackOverflow
  | invalidCall
  | arithmeticError
  /-- with the opcode byte -/
  | unknownOpcode (opcode : Byte)
  /-- with the relative address -/
  | memoryOutOfRange (a : Word)
  | fetchOutOfRange
  | invalidReturn
  deriving DecidableEq, Repr

/-- The run status (R24). A fault of the spec is a value of this register, reached by a next state (R214;
assumption log 8). -/
inductive Status where
  | running
  | halted (reason : HaltReason)
  | faulted (kind : FaultKind) (faultIp : Word)
  deriving DecidableEq, Repr

/-- Why the step function has no next state. -/
inductive Fault where
  /-- Raised by `step` on a Halted or Faulted core: "a Halted or Faulted core has no step" (40_cycle.md R96).
  Safe: the core goes nowhere either (assumption log 9). -/
  | notRunning
  deriving DecidableEq, Repr

/-- What the model gives no meaning. -/
inductive Refusal where
  /-- Raised by `exec` for an instruction without a meaning; no arm does. Safe. -/
  | notModelled (mnemonic : String)
  /-- Raised by the host call `appendInstruction` after `run()` has started (R234, D22). Safe. -/
  | appendAfterRun
  /-- Raised by the host call `run` on a core that has been run (R235, D22). Safe. -/
  | runAgain
  /-- Raised by introspection outside `S[0..C-1]` or `[0, M)`, of which R236 says nothing. Safe. -/
  | introspectOutside
  deriving DecidableEq, Repr

/-- The architectural state (10_state.md R20), the configuration it runs under (R37; assumption log 1), and the
model's counter of TIME draws (assumption log 7). -/
structure State where
  /-- The flat memory (20_memory.md R50). -/
  mem : Memory
  /-- The operand stack array, dead slots included (R25, R33). -/
  S : Slots
  /-- One past the top-of-stack slot (R26). -/
  top : Nat
  /-- The frame pointer (R28). -/
  base : Nat
  /-- The instruction pointer, a word index (R22). -/
  ip : Word
  /-- The run status (R24). -/
  status : Status
  /-- The parameters, fixed for a run (R37). No step changes them. -/
  cfg : Config
  /-- How many TIME draws have been taken: the model's own field, read and advanced by TIME alone. -/
  timeDraws : Nat
  deriving DecidableEq, Repr

/-- The outcome of a step of this machine. -/
abbrev Outcome := Host.Outcome State Fault Refusal

/-- The run-start state of R36 (70_reset_and_hazards.md R241 step 2) over a loaded memory. The slots are all unlisted
(DESIGN CHOICE, assumption log 6). -/
def State.runStart (cfg : Config) (mem : Memory) : State where
  mem := mem
  S := []
  top := 0
  base := 0
  ip := 0
  status := .running
  cfg := cfg
  timeDraws := 0

/-- The machine right after reset: the run-start state under the default configuration, with no program loaded, every
byte of memory at `INIT_MEM` (assumption logs 2, 4, 5, 18). -/
def State.reset : State := State.runStart Config.standard Config.standard.initMem

end Sys2Proof.Machine
end

