-- ==== Sys2Proof/Machine/Ops.lean ====
section
/-! DEFINITION. The named operations on the state: one update per register, a slot and a byte, the fetch increment,
entering a fault, and instruction fetch. -/

namespace Sys2Proof.Machine

/-- `mem` replaced. -/
def State.setMem (s : State) (m : Memory) : State := { s with mem := m }

/-- The whole slot array replaced (only the frame copy of CALL writes more than one slot). -/
def State.setSlots (s : State) (m : Slots) : State := { s with S := m }

/-- `S[k] <- v` (00_scope.md, notation). -/
def State.setSlot (s : State) (k : Nat) (v : Word) : State := s.setSlots (Cells.write s.S k v)

/-- `top <- n`. -/
def State.setTop (s : State) (n : Nat) : State := { s with top := n }

/-- `base <- n`. -/
def State.setBase (s : State) (n : Nat) : State := { s with base := n }

/-- `ip <- v`. -/
def State.setIp (s : State) (v : Word) : State := { s with ip := v }

/-- `status <- x`. -/
def State.setStatus (s : State) (x : Status) : State := { s with status := x }

/-- The model's draw counter replaced. -/
def State.setTimeDraws (s : State) (n : Nat) : State := { s with timeDraws := n }

/-- `S[k]`. -/
def State.slot (s : State) (k : Nat) : Word := Cells.read s.S k

/-- `mem[a]`. -/
def State.byte (s : State) (a : Nat) : Byte := Cells.read s.mem a

/-- The fetch increment `ip <- ip0 + 1` (40_cycle.md R93). A meaning is given the state before it and applies it
itself, once its checks have passed: so a fault keeps `ip = ip0` (R214). -/
def State.advance (s : State) : State := s.setIp (s.ip + 1)

/-- ENTERING A FAULT: the committed state is the state before the step with `status = Faulted(kind, ip0)` and the
info recorded (60_exceptions.md R213, R214). There is no vector, no handler, no saved register and no return from a
fault (R218, R219). -/
def State.raise (s : State) (k : FaultKind) : State := s.setStatus (.faulted k s.ip)

/-- `raise` as the outcome of a step. -/
def fail (k : FaultKind) (s : State) : Outcome := .next (s.raise k)

/-- The numeric fault codes of R210 (D24). -/
def FaultKind.code : FaultKind → Nat
  | .stackUnderflow => 1
  | .stackOverflow => 2
  | .invalidCall => 3
  | .arithmeticError => 4
  | .unknownOpcode _ => 5
  | .memoryOutOfRange _ => 6
  | .fetchOutOfRange => 7
  | .invalidReturn => 8

/-- Whether the core has a step at all (R92, R96). -/
def State.isRunning (s : State) : Bool := s.status == .running

/-- The fetch range check of 20_memory.md R56, on unbounded integers. -/
def State.fetchable (s : State) : Bool := decide (8 * s.ip.toNat + 8 ≤ s.cfg.dataBase)

/-- The word at `8 * ip`, big-endian (R55). -/
def State.fetchedWord (s : State) : Word := fetchRead s.mem (8 * s.ip.toNat)

/-- Fetch and decode (R92): the instruction at `ip`, or the fault of a fetch outside ROM and Code. -/
def State.fetch (s : State) : Except FaultKind Instr :=
  if s.fetchable then .ok (decodeWord s.cfg.opcodes s.fetchedWord) else .error .fetchOutOfRange

end Sys2Proof.Machine
end

