-- ==== Sys2Proof/Machine/Operands.lean ====
section
/-! DEFINITION. Operand forms: the values an instruction takes from the frame, the effective address, and the shapes of
instruction (push, replace, branch, load, store) that the meanings share. Every shape makes all its checks before its
first write (60_exceptions.md R215), in the order of R216. -/

namespace Sys2Proof.Machine

/-- `top - base >= n` on unbounded integers: the frame holds at least `n` values (10_state.md R31). -/
def State.hasDepth (s : State) (n : Nat) : Bool := decide (s.base + n ≤ s.top)

/-- `top < C`: a push fits (R30). -/
def State.hasRoom (s : State) : Bool := decide (s.top < s.cfg.stackCap)

/-- The `k`-th value of the frame from the top, counting from 1: `S[top-k]`. -/
abbrev State.operand (s : State) (k : Nat) : Word := s.slot (s.top - k)

/-- The translator EA(a) = dataBase + a, on unbounded integers, no wrap (20_memory.md R52). -/
abbrev State.ea (s : State) (a : Word) : Nat := s.cfg.dataBase + a.toNat

/-- The translator's bounds check for an access of `n` bytes: EA(a) + n <= M (R52). -/
def State.inMemory (s : State) (a : Word) (n : Nat) : Bool := decide (s.ea a + n ≤ s.cfg.memSize)

/-- An instruction that pops nothing and pushes `v` (R30). -/
def pushValue (v : Word) (s : State) : Outcome :=
  if s.hasRoom then .next ((s.advance.setSlot s.top v).setTop (s.top + 1)) else fail .stackOverflow s

/-- An instruction that replaces the top value `a` by `f a`: the net effect of a pop and a push (42_arith.md R125). -/
def replaceTop (f : Word → Word) (s : State) : Outcome :=
  if s.hasDepth 1 then .next (s.advance.setSlot (s.top - 1) (f (s.operand 1))) else fail .stackUnderflow s

/-- An instruction that pops `b`, then `a`, and pushes `f a b` into the slot `a` held (42_arith.md, opening). -/
def replaceTopTwo (f : Word → Word → Word) (s : State) : Outcome :=
  if s.hasDepth 2 then
    .next ((s.advance.setSlot (s.top - 2) (f (s.operand 2) (s.operand 1))).setTop (s.top - 1))
  else fail .stackUnderflow s

/-- As `replaceTopTwo`, but a zero `b` is ArithmeticError, checked after the depth (R123, R124, R216). -/
def divideTopTwo (f : Word → Word → Word) (s : State) : Outcome :=
  if s.hasDepth 2 && s.operand 1 == 0 then fail .arithmeticError s else replaceTopTwo f s

/-- A jump that pops `n` values, the target first, and takes it if `taken`; else `ip` stays `ip0 + 1`. The target is
not checked (46_branch.md R171). -/
def popAndJump (n : Nat) (taken : Bool) (s : State) : Outcome :=
  if s.hasDepth n then .next ((if taken then s.setIp (s.operand 1) else s.advance).setTop (s.top - n))
  else fail .stackUnderflow s

/-- A load of `n` bytes: the value takes the address's slot. Depth is checked before bounds (45_loadstore.md R150,
R152, D16). -/
def loadValue (n : Nat) (s : State) : Outcome :=
  if s.hasDepth 1 then
    if s.inMemory (s.operand 1) n then
      .next (s.advance.setSlot (s.top - 1) (memRead s.mem (s.ea (s.operand 1)) n))
    else fail (.memoryOutOfRange (s.operand 1)) s
  else fail .stackUnderflow s

/-- A store of `n` bytes: the address is popped first, the value second (R151, R153). -/
def storeValue (n : Nat) (s : State) : Outcome :=
  if s.hasDepth 2 then
    if s.inMemory (s.operand 1) n then
      .next ((s.advance.setMem (memWrite s.mem (s.ea (s.operand 1)) n (s.operand 2))).setTop (s.top - 2))
    else fail (.memoryOutOfRange (s.operand 1)) s
  else fail .stackUnderflow s

end Sys2Proof.Machine
end

