-- ==== Sys2Proof/Machine/Arith.lean ====
section
/-! DEFINITION. Integer arithmetic (42_arith.md): unsigned, modulo 2^64 (R127). -/

namespace Sys2Proof.Machine

/-- ADD (R120). -/
def execAdd (s : State) : Outcome := replaceTopTwo (fun a b => a + b) s

/-- SUB (R121): `a - b`, with `b` on top. -/
def execSub (s : State) : Outcome := replaceTopTwo (fun a b => a - b) s

/-- MUL (R122): the low 64 bits of the product. -/
def execMul (s : State) : Outcome := replaceTopTwo (fun a b => a * b) s

/-- DIV (R123): unsigned, truncating. -/
def execDiv (s : State) : Outcome := divideTopTwo (fun a b => BitVec.ofNat 64 (a.toNat / b.toNat)) s

/-- MOD (R124): `a - b * floor(a / b)`. -/
def execMod (s : State) : Outcome := divideTopTwo (fun a b => BitVec.ofNat 64 (a.toNat % b.toNat)) s

/-- INC (R125). -/
def execInc (s : State) : Outcome := replaceTop (fun a => a + 1) s

/-- DEC (R126). -/
def execDec (s : State) : Outcome := replaceTop (fun a => a - 1) s

end Sys2Proof.Machine
end

