-- ==== Sys2Proof/Machine/Bitwise.lean ====
section
/-! DEFINITION. Bitwise and shift instructions (43_bitwise.md). -/

namespace Sys2Proof.Machine

/-- The count that a shift uses under SHIFT_MODE (R134): all of `b`, or `b mod 64`. -/
def shiftCount (mode : ShiftMode) (b : Word) : Nat :=
  match mode with
  | .full => b.toNat
  | .masked6 => b.toNat % 64

/-- `shl(a, b)` of R134: every bit is lost from a count of 64 on. -/
def shiftLeft (mode : ShiftMode) (a b : Word) : Word :=
  if shiftCount mode b < 64 then a <<< shiftCount mode b else 0

/-- `shr(a, b)` of R134: logical, zero fill (R136). -/
def shiftRight (mode : ShiftMode) (a b : Word) : Word :=
  if shiftCount mode b < 64 then a >>> shiftCount mode b else 0

/-- AND (R130). -/
def execAnd (s : State) : Outcome := replaceTopTwo (fun a b => a &&& b) s

/-- OR (R131). -/
def execOr (s : State) : Outcome := replaceTopTwo (fun a b => a ||| b) s

/-- XOR (R132). -/
def execXor (s : State) : Outcome := replaceTopTwo (fun a b => a ^^^ b) s

/-- NOT (R133): the 64-bit complement. -/
def execNot (s : State) : Outcome := replaceTop (fun a => ~~~a) s

/-- SHL (R135). -/
def execShl (s : State) : Outcome := replaceTopTwo (shiftLeft s.cfg.shiftMode) s

/-- SHR (R136). -/
def execShr (s : State) : Outcome := replaceTopTwo (shiftRight s.cfg.shiftMode) s

end Sys2Proof.Machine
end

