-- ==== Sys2Proof/Machine/Branch.lean ====
section
/-! DEFINITION. Jumps and conditional branches (46_branch.md). The target is `S[top-1]`, popped first; a one-value
condition is on `S[top-2]`, a two-value one on `a = S[top-3]` and `b = S[top-2]`. -/

namespace Sys2Proof.Machine

/-- JMP (R160). -/
def execJmp (s : State) : Outcome := popAndJump 1 true s

/-- JZ (R161). -/
def execJz (s : State) : Outcome := popAndJump 2 (isZero (s.operand 2)) s

/-- JNZ (R162). -/
def execJnz (s : State) : Outcome := popAndJump 2 (!isZero (s.operand 2)) s

/-- JN (R163). -/
def execJn (s : State) : Outcome := popAndJump 2 (isNegative (s.operand 2)) s

/-- JP (R164). -/
def execJp (s : State) : Outcome := popAndJump 2 (isPositive (s.operand 2)) s

/-- JE (R165). -/
def execJe (s : State) : Outcome := popAndJump 3 (cmpEq (s.operand 3) (s.operand 2)) s

/-- JNE (R166). -/
def execJne (s : State) : Outcome := popAndJump 3 (!cmpEq (s.operand 3) (s.operand 2)) s

/-- JLT (R167). -/
def execJlt (s : State) : Outcome := popAndJump 3 (cmpLt (s.operand 3) (s.operand 2)) s

/-- JGT (R168). -/
def execJgt (s : State) : Outcome := popAndJump 3 (cmpGt (s.operand 3) (s.operand 2)) s

/-- JLE (R169). -/
def execJle (s : State) : Outcome := popAndJump 3 (cmpLe (s.operand 3) (s.operand 2)) s

/-- JGE (R170). -/
def execJge (s : State) : Outcome := popAndJump 3 (cmpGe (s.operand 3) (s.operand 2)) s

end Sys2Proof.Machine
end

