-- ==== Sys2Proof/Machine/Call.lean ====
section
/-! DEFINITION. The call-frame protocol (48_call.md), over the frame layout of 10_state.md R34. -/

namespace Sys2Proof.Machine

/-- `for i in 0 .. n-1: S[dst + i] <- S[src + i]` (R186). -/
def copySlots (src dst : Nat) : Nat → Slots → Slots
  | 0, m => m
  | n + 1, m => copySlots (src + 1) (dst + 1) n (Cells.write m dst (Cells.read m src))

/-- The slots after CALL with `n` arguments, from `top = t0`: the return address and the saved link above the count,
then the copied arguments (R186). -/
def callSlots (s : State) (n : Nat) : Slots :=
  copySlots (s.top - 1 - n) (s.top + 2) n
    (Cells.write (Cells.write s.S s.top (s.ip + 1)) (s.top + 1) (BitVec.ofNat 64 s.base))

/-- The count `n` that CALL reads, `S[t0-1]`, as an unbounded integer. -/
def State.callCount (s : State) : Nat := (s.operand 1).toNat

/-- CALL (R186): InvalidCall is checked before StackOverflow, both before any write (R185, R215, 90_conflicts.md C7).
The return address is `ip0 + 1` (R93). -/
def execCall (target : Operand) (s : State) : Outcome :=
  if s.hasDepth 1 && s.hasDepth (s.callCount + 1) then
    if s.top + 2 + s.callCount ≤ s.cfg.stackCap then
      .next ((((s.setSlots (callSlots s s.callCount)).setBase (s.top + 2)).setTop (s.top + 2 + s.callCount)).setIp
        (zextOperand target))
    else fail .stackOverflow s
  else fail .invalidCall s

/-- `n = S[base-3]`: the count of the current frame (R34). -/
def State.frameCount (s : State) : Nat := (s.slot (s.base - 3)).toNat

/-- `savedPC = S[base-2]`: the return address of the current frame. -/
def State.returnIp (s : State) : Word := s.slot (s.base - 2)

/-- `savedBase = S[base-1]`: the caller's base. -/
def State.savedBase (s : State) : Nat := (s.slot (s.base - 1)).toNat

/-- The checks of RET (R187): there is a frame, and its metadata keep 10_state.md R35. -/
def State.canReturn (s : State) : Bool :=
  decide (3 ≤ s.base) && decide (s.frameCount ≤ s.base - 3) && decide (s.savedBase ≤ s.base - 3 - s.frameCount)

/-- Where RET unwinds to: `newTop = base - 3 - n`. -/
def State.unwoundTop (s : State) : Nat := s.base - 3 - s.frameCount

/-- RET (R187): a frame that is not empty returns its top value (90_conflicts.md C3). -/
def execRet (s : State) : Outcome :=
  if s.canReturn then
    if s.base < s.top then
      .next ((((s.setSlot s.unwoundTop (s.operand 1)).setTop (s.unwoundTop + 1)).setBase s.savedBase).setIp s.returnIp)
    else .next (((s.setTop s.unwoundTop).setBase s.savedBase).setIp s.returnIp)
  else fail .invalidReturn s

end Sys2Proof.Machine
end

