-- ==== Sys2Proof/Machine/Compare.lean ====
section
/-! DEFINITION. Comparisons (44_compare.md): push 1 or 0, compared unsigned. -/

namespace Sys2Proof.Machine

/-- EQ (R140). -/
def execEq (s : State) : Outcome := replaceTopTwo (fun a b => boolWord (cmpEq a b)) s

/-- LT (R141). -/
def execLt (s : State) : Outcome := replaceTopTwo (fun a b => boolWord (cmpLt a b)) s

/-- GT (R142). -/
def execGt (s : State) : Outcome := replaceTopTwo (fun a b => boolWord (cmpGt a b)) s

/-- LTE (R143). -/
def execLte (s : State) : Outcome := replaceTopTwo (fun a b => boolWord (cmpLe a b)) s

/-- GTE (R144). -/
def execGte (s : State) : Outcome := replaceTopTwo (fun a b => boolWord (cmpGe a b)) s

end Sys2Proof.Machine
end

