-- ==== Sys2Proof/Machine/Env.lean ====
section
/-! DEFINITION. Environment queries (47_env.md). -/

namespace Sys2Proof.Machine

/-- The draw that TIME pushes in this state: a free value, any 64-bit word (R180, D17; assumption log 7). -/
def State.timeDraw (s : State) : Word := Config.wallClock s.timeDraws

/-- TIME (R180): pushes the draw and, if it does, takes it, so that the next TIME has a draw of its own. -/
def execTime (s : State) : Outcome :=
  if s.hasRoom then pushValue s.timeDraw (s.setTimeDraws (s.timeDraws + 1)) else fail .stackOverflow s

/-- SPACE (R181): the absolute byte offset of the Data segment. -/
def execSpace (s : State) : Outcome := pushValue (BitVec.ofNat 64 s.cfg.dataBase) s

end Sys2Proof.Machine
end

