-- ==== Sys2Proof/Machine/Halt.lean ====
section
/-! DEFINITION. Halt and unknown opcodes (49_halt.md). -/

namespace Sys2Proof.Machine

/-- HLT (R200): `ip` stays `ip0 + 1`. -/
def execHlt (s : State) : Outcome := .next (s.advance.setStatus (.halted .hlt))

/-- A word whose opcode byte has no handler (R201), under UNKNOWN_OPCODE_POLICY (90_conflicts.md C6). -/
def execUnassigned (opcode : Byte) (s : State) : Outcome :=
  match s.cfg.unknownPolicy with
  | .halt => .next (s.advance.setStatus (.halted .unknownOpcode))
  | .fault => fail (.unknownOpcode opcode) s

end Sys2Proof.Machine
end

