-- ==== Sys2Proof/Machine/LoadStore.lean ====
section
/-! DEFINITION. Loads and stores (45_loadstore.md): Data-relative, little-endian. -/

namespace Sys2Proof.Machine

/-- LOAD (R150): 8 bytes. -/
def execLoad (s : State) : Outcome := loadValue 8 s

/-- STORE (R151): 8 bytes. -/
def execStore (s : State) : Outcome := storeValue 8 s

/-- LOAD8 (R152): one byte, zero-extended. -/
def execLoad8 (s : State) : Outcome := loadValue 1 s

/-- STORE8 (R153): the low byte of the value. -/
def execStore8 (s : State) : Outcome := storeValue 1 s

end Sys2Proof.Machine
end

