-- ==== Sys2Proof/Machine/Stack.lean ====
section
/-! DEFINITION. Stack instructions (41_stack.md). -/

namespace Sys2Proof.Machine

/-- PUSH (R110): the operand, zero-extended. -/
def execPush (imm : Operand) (s : State) : Outcome := pushValue (zextOperand imm) s

/-- POP (R111): the popped slot keeps its value as a dead slot (R33). -/
def execPop (s : State) : Outcome :=
  if s.hasDepth 1 then .next (s.advance.setTop (s.top - 1)) else fail .stackUnderflow s

/-- DUP (R112): underflow is checked before overflow (D14). -/
def execDup (s : State) : Outcome :=
  if s.hasDepth 1 then pushValue (s.operand 1) s else fail .stackUnderflow s

/-- SWAP (R113): never overflows. -/
def execSwap (s : State) : Outcome :=
  if s.hasDepth 2 then
    .next ((s.advance.setSlot (s.top - 2) (s.operand 1)).setSlot (s.top - 1) (s.operand 2))
  else fail .stackUnderflow s

end Sys2Proof.Machine
end

