-- ==== Sys2Proof/Machine/Dispatch.lean ====
section
/-! DEFINITION. The dispatcher: one arm per instruction (40_cycle.md R95). -/

namespace Sys2Proof.Machine

/-- The handler of an instruction, run on the state before the fetch increment (assumption log 8). -/
def exec (i : Instr) (s : State) : Host.Outcome State Fault Refusal :=
  match i with
  | .push imm => Sys2Proof.Machine.execPush imm s
  | .pop => Sys2Proof.Machine.execPop s
  | .add => Sys2Proof.Machine.execAdd s
  | .sub => Sys2Proof.Machine.execSub s
  | .mul => Sys2Proof.Machine.execMul s
  | .div => Sys2Proof.Machine.execDiv s
  | .mod => Sys2Proof.Machine.execMod s
  | .and => Sys2Proof.Machine.execAnd s
  | .or => Sys2Proof.Machine.execOr s
  | .xor => Sys2Proof.Machine.execXor s
  | .not => Sys2Proof.Machine.execNot s
  | .inc => Sys2Proof.Machine.execInc s
  | .dec => Sys2Proof.Machine.execDec s
  | .shl => Sys2Proof.Machine.execShl s
  | .shr => Sys2Proof.Machine.execShr s
  | .dup => Sys2Proof.Machine.execDup s
  | .swap => Sys2Proof.Machine.execSwap s
  | .eq => Sys2Proof.Machine.execEq s
  | .lt => Sys2Proof.Machine.execLt s
  | .gt => Sys2Proof.Machine.execGt s
  | .lte => Sys2Proof.Machine.execLte s
  | .gte => Sys2Proof.Machine.execGte s
  | .load => Sys2Proof.Machine.execLoad s
  | .store => Sys2Proof.Machine.execStore s
  | .load8 => Sys2Proof.Machine.execLoad8 s
  | .store8 => Sys2Proof.Machine.execStore8 s
  | .jmp => Sys2Proof.Machine.execJmp s
  | .jz => Sys2Proof.Machine.execJz s
  | .jnz => Sys2Proof.Machine.execJnz s
  | .jn => Sys2Proof.Machine.execJn s
  | .jp => Sys2Proof.Machine.execJp s
  | .je => Sys2Proof.Machine.execJe s
  | .jne => Sys2Proof.Machine.execJne s
  | .jlt => Sys2Proof.Machine.execJlt s
  | .jgt => Sys2Proof.Machine.execJgt s
  | .jle => Sys2Proof.Machine.execJle s
  | .jge => Sys2Proof.Machine.execJge s
  | .time => Sys2Proof.Machine.execTime s
  | .space => Sys2Proof.Machine.execSpace s
  | .call target => Sys2Proof.Machine.execCall target s
  | .ret => Sys2Proof.Machine.execRet s
  | .hlt => Sys2Proof.Machine.execHlt s
  | .unassigned opcode => Sys2Proof.Machine.execUnassigned opcode s

end Sys2Proof.Machine
end

