-- ==== Sys2Proof/Machine/Step.lean ====
section
/-! DEFINITION. One step: fetch, decode, execute (40_cycle.md R92). -/

namespace Sys2Proof.Machine

/-- The step of R92. It is defined only on a Running core (R96). -/
def step (s : State) : Host.Outcome State Fault Refusal :=
  if s.isRunning then
    match s.fetch with
    | .ok i => exec i s
    | .error k => fail k s
  else .fault .notRunning

/-- `s` with the instruction word `w` of `nbits` bits stored big-endian at `8 * ip`, where the next step fetches. It
stands for the load of a program from outside the machine (R241; assumption log 18). -/
def State.withFetchWord (s : State) (nbits w : Nat) : State :=
  s.setMem (storeProgramWord s.mem (8 * s.ip.toNat) (BitVec.ofNat 64 (w % 2 ^ nbits)))

end Sys2Proof.Machine
end

