-- ==== Sys2Proof/Machine/Assembler.lean ====
section
/-! DEFINITION. The assembler of 30_encoding.md R79, from text to instruction words. It is the host's side: no step calls
it. What R79 leaves open (white space, label names, letter case, empty lines) is the model's choice: assumption log 25. -/

namespace Sys2Proof.Machine

/-- Why a text does not assemble. -/
inductive AsmError where
  /-- The first word of a line is not one of the 42 mnemonics (R80: there are no pseudo-instructions). -/
  | unknownMnemonic
  /-- PUSH or CALL without an operand. -/
  | missingOperand
  /-- An operand on another instruction, or more than one (R79). -/
  | unexpectedOperand
  /-- An operand that is neither a number nor a label name. -/
  | badOperand
  /-- An operand of `2^56` or more (R79). -/
  | operandTooLarge
  /-- A declared label whose name is empty, starts with a digit or holds a colon. -/
  | badLabel
  /-- A label declared twice. -/
  | duplicateLabel
  /-- A label that is used and not declared. -/
  | undefinedLabel
  deriving DecidableEq, Repr

/-- An operand as written (R79). -/
inductive OperandText where
  | number (value : Nat)
  | label (name : List Char)
  deriving DecidableEq, Repr

/-- A line as written: a label, an instruction, both or neither. -/
structure SourceLine where
  label : Option (List Char)
  instr : Option (Mnemonic × Option OperandText)
  deriving DecidableEq, Repr

/-- The spelling of a mnemonic (R76). -/
def mnemonicText : Mnemonic → String
  | .push => "PUSH" | .pop => "POP" | .add => "ADD" | .sub => "SUB" | .mul => "MUL" | .div => "DIV" | .mod => "MOD"
  | .and => "AND" | .or => "OR" | .xor => "XOR" | .not => "NOT" | .inc => "INC" | .dec => "DEC" | .shl => "SHL"
  | .shr => "SHR" | .dup => "DUP" | .swap => "SWAP" | .eq => "EQ" | .lt => "LT" | .gt => "GT" | .lte => "LTE"
  | .gte => "GTE" | .load => "LOAD" | .store => "STORE" | .load8 => "LOAD8" | .store8 => "STORE8" | .jmp => "JMP"
  | .jz => "JZ" | .jnz => "JNZ" | .jn => "JN" | .jp => "JP" | .je => "JE" | .jne => "JNE" | .jlt => "JLT"
  | .jgt => "JGT" | .jle => "JLE" | .jge => "JGE" | .time => "TIME" | .space => "SPACE" | .call => "CALL"
  | .ret => "RET" | .hlt => "HLT"

/-- The mnemonic that a word spells. -/
def findMnemonic (w : List Char) : Option Mnemonic := Mnemonic.all.find? fun m => (mnemonicText m).toList == w

/-- The pieces of a text between separators, in order, empty ones included. -/
def splitAtSep (sep : Char → Bool) : List Char → List (List Char)
  | [] => [[]]
  | c :: cs =>
    match splitAtSep sep cs with
    | [] => [[c]]
    | p :: ps => if sep c then [] :: p :: ps else (c :: p) :: ps

/-- The words of a line, its comment dropped (R79). -/
def lineWords (line : List Char) : List (List Char) :=
  (splitAtSep (fun c => c == ' ' || c == '\t' || c == '\r') (line.takeWhile fun c => c != ';')).filter fun w => !w.isEmpty

/-- The value of a digit, decimal or hexadecimal. -/
def digitValue (c : Char) : Option Nat :=
  if '0' ≤ c ∧ c ≤ '9' then some (c.toNat - 48)
  else if 'a' ≤ c ∧ c ≤ 'f' then some (c.toNat - 87)
  else if 'A' ≤ c ∧ c ≤ 'F' then some (c.toNat - 55)
  else none

/-- The value of digits in a base, onto what stands before them. -/
def digitsValue (base : Nat) : Nat → List Char → Option Nat
  | acc, [] => some acc
  | acc, c :: cs =>
    match digitValue c with
    | some d => if d < base then digitsValue base (acc * base + d) cs else none
    | none => none

/-- Whether a word may name a label: not empty, no colon, and no digit first. -/
def isLabelName : List Char → Bool
  | [] => false
  | c :: cs => (c < '0' || '9' < c) && (c :: cs).all fun x => x != ':'

/-- An operand: decimal, `0x` hexadecimal, or a label name (R79). -/
def parseOperand : List Char → Option OperandText
  | '0' :: 'x' :: d :: ds => (digitsValue 16 0 (d :: ds)).map .number
  | w => if isLabelName w then some (.label w) else (digitsValue 10 0 w).map .number

/-- `MNEMONIC` or `MNEMONIC operand` (R79). -/
def parseInstr : List (List Char) → Except AsmError (Option (Mnemonic × Option OperandText))
  | [] => .ok none
  | w :: ops =>
    match findMnemonic w, ops with
    | none, _ => .error .unknownMnemonic
    | some m, [] => .ok (some (m, none))
    | some m, [op] =>
      match parseOperand op with
      | some v => .ok (some (m, some v))
      | none => .error .badOperand
    | some _, _ => .error .unexpectedOperand

/-- A line, with its label declaration `name:` first, if it has one (R79). -/
def parseLine (line : List Char) : Except AsmError SourceLine :=
  match lineWords line with
  | [] => .ok ⟨none, none⟩
  | w :: ws =>
    if w.getLast? = some ':' then
      if isLabelName w.dropLast then (parseInstr ws).map fun i => ⟨some w.dropLast, i⟩ else .error .badLabel
    else (parseInstr (w :: ws)).map fun i => ⟨none, i⟩

/-- All lines, or the first error. -/
def parseLines : List (List Char) → Except AsmError (List SourceLine)
  | [] => .ok []
  | l :: ls =>
    match parseLine l with
    | .error e => .error e
    | .ok x => (parseLines ls).map fun xs => x :: xs

/-- The value of each label: the word index of the next instruction (R79). -/
def labelTable : Nat → List SourceLine → List (List Char × Nat)
  | _, [] => []
  | n, l :: ls =>
    let rest := labelTable (if l.instr.isSome then n + 1 else n) ls
    match l.label with
    | some name => (name, n) :: rest
    | none => rest

/-- The instruction of a mnemonic with its operand: one operand on PUSH and CALL, below `2^56`, and none elsewhere
(R79). -/
def assembleInstr (labels : List (List Char × Nat)) : Mnemonic → Option OperandText → Except AsmError Instr
  | m, none => if m = .push ∨ m = .call then .error .missingOperand else .ok (m.toInstr 0)
  | m, some op =>
    if m = .push ∨ m = .call then
      match (match op with | .number v => some v | .label name => (labels.find? fun e => e.1 == name).map (·.2)) with
      | some v => if v < 2 ^ 56 then .ok (m.toInstr (BitVec.ofNat 56 v)) else .error .operandTooLarge
      | none => .error .undefinedLabel
    else .error .unexpectedOperand

/-- The instructions of the lines, in order. -/
def assembleLines (labels : List (List Char × Nat)) : List SourceLine → Except AsmError (List Instr)
  | [] => .ok []
  | l :: ls =>
    match l.instr with
    | none => assembleLines labels ls
    | some (m, op) =>
      match assembleInstr labels m op with
      | .error e => .error e
      | .ok i => (assembleLines labels ls).map fun is => i :: is

/-- The assembler: one word for each instruction line (R71, R73, R79). -/
def assemble (o : OpcodeMap) (src : List Char) : Except AsmError (List Word) :=
  match parseLines (splitAtSep (fun c => c == '\n') src) with
  | .error e => .error e
  | .ok lines =>
    let labels := labelTable 0 lines
    if (labels.map (·.1)).Nodup then (assembleLines labels lines).map fun is => is.map (encode o)
    else .error .duplicateLabel

end Sys2Proof.Machine
end

