-- ==== Sys2Proof/Machine/Vm.lean ====
section
/-! DEFINITION. The VM wrapper and the host calls that drive the core: construct, append, run, introspect
(60_exceptions.md R233 to R237, 70_reset_and_hazards.md R240 to R242). They are the host's side: no step calls them. -/

namespace Sys2Proof.Machine

/-- The errors that host calls report; no instruction raises them (R211). -/
inductive HostError where
  /-- "memory too small" (R233). -/
  | constructionError
  /-- "ROM capacity exceeded while appending" (R234). -/
  | programTooLarge
  deriving DecidableEq, Repr

/-- The VM: the constructed memory, the program list, and the core, which has no defined state until `run()` starts
(R2, R240). -/
structure Vm where
  cfg : Config
  mem : Memory
  program : List Word
  core : Option State
  deriving DecidableEq, Repr

/-- `construct(M)`, with `M` in the configuration: fails if the memory is smaller than the segments; else every byte is
at `INIT_MEM` and the program list is empty (R233, R240). -/
def Vm.construct (cfg : Config) : Host.Outcome Vm HostError Refusal :=
  if cfg.memSize < cfg.segmentSum then .fault .constructionError
  else .next { cfg := cfg, mem := cfg.initMem, program := [], core := none }

/-- `appendInstruction(w)` (R234): refused once `run()` has started (D22), an error when the program already holds
`ROM_WORDS` words. -/
def Vm.append (vm : Vm) (w : Word) : Host.Outcome Vm HostError Refusal :=
  match vm.core with
  | some _ => .refused .appendAfterRun
  | none =>
    if vm.cfg.romWords ≤ vm.program.length then .fault .programTooLarge
    else .next { vm with program := vm.program ++ [w] }

/-- The state that `run()` starts from: the image loaded, then the run-start values (R241 steps 1 and 2). -/
def Vm.launchState (vm : Vm) : State := State.runStart vm.cfg (loadImage 0 vm.program vm.mem)

/-- The start of `run()` (R235, R241); a second one is refused (D22). -/
def Vm.start (vm : Vm) : Host.Outcome Vm HostError Refusal :=
  match vm.core with
  | some _ => .refused .runAgain
  | none => .next { vm with core := some vm.launchState }

/-- The loop of `run()`, `k` turns of it: step until the status is not Running (R235). The bound is the caller's: a run
returns if some `k` reaches a stop, and a run that no `k` stops is kept as infinite (R97; assumption log 24). -/
def State.runFor : Nat → State → State
  | 0, s => s
  | k + 1, s =>
    match step s with
    | .next s' => State.runFor k s'
    | .fault _ => s
    | .refused _ => s

/-- The outcome of R220: none while the core is Running, else the halt or the fault with its info. -/
def State.stopOutcome (s : State) : Option Status :=
  match s.status with
  | .running => none
  | .halted r => some (.halted r)
  | .faulted k ip => some (.faulted k ip)

/-- `k` turns of the loop on the VM's core. The VM keeps the state they end in (R220). -/
def Vm.advance (vm : Vm) (k : Nat) : Vm := { vm with core := vm.core.map (State.runFor k) }

/-- What the VM's core has to report: the outcome of R220 once it has stopped, and none before. -/
def Vm.report (vm : Vm) : Option Status := vm.core.bind State.stopOutcome

/-- The call `run()`, cut off after `k` turns of the loop: the start (R241), the turns, and the VM afterwards, with the
final state in it, beside the outcome it returns (R235, R220). No outcome means that the loop is still going on. -/
def Vm.run (k : Nat) (vm : Vm) : Host.Outcome (Vm × Option Status) HostError Refusal :=
  match vm.start with
  | .next started => .next (started.advance k, (started.advance k).report)
  | .fault e => .fault e
  | .refused r => .refused r

/-- `run()` returns the outcome `o`, leaving the final state `t` in the VM (R235, R220). -/
def Vm.Returns (vm : Vm) (o : Status) (t : State) : Prop := ∃ k, vm.run k = .next ({ vm with core := some t }, some o)

/-- A normal end: `Halted(HLT)` (70_reset_and_hazards.md R247). -/
def Vm.EndsNormally (vm : Vm) : Prop := ∃ t, vm.Returns (.halted .hlt) t

/-- The memory that introspection sees: the core's once it runs. -/
def Vm.currentMem (vm : Vm) : Memory :=
  match vm.core with
  | some s => s.mem
  | none => vm.mem

/-- Introspection of `S[k]` (R236). A dead slot, and any slot before `run()`, reads as any value: `any`, the caller's
(R33; assumption log 21). -/
def Vm.inspectSlot (vm : Vm) (k : Nat) (any : Word) : Host.Outcome Word HostError Refusal :=
  if k < vm.cfg.stackCap then
    match vm.core with
    | some s => .next (if k < s.top then s.slot k else any)
    | none => .next any
  else .refused .introspectOutside

/-- Introspection of the `n` bytes of memory from offset `i` (R236). -/
def Vm.inspectBytes (vm : Vm) (i n : Nat) : Host.Outcome (List Byte) HostError Refusal :=
  if i + n ≤ vm.cfg.memSize then .next (vm.currentMem.readBytes i n) else .refused .introspectOutside

/-- The registers of the final state that R220 has the host read. -/
structure Registers where
  top : Nat
  base : Nat
  ip : Word
  deriving DecidableEq, Repr

/-- Introspection of the registers (R220; R236 itself names only slots and bytes: assumption log 21). Before `run()` they
have no defined state (R240) and read as any values: `any`, the caller's. -/
def Vm.inspectRegisters (vm : Vm) (any : Registers) : Registers :=
  match vm.core with
  | some s => ⟨s.top, s.base, s.ip⟩
  | none => any

end Sys2Proof.Machine
end

