-- ==== Sys2Proof/Safety.lean ====
section
/-! DEFINITION. The invariant of the machine, what a safe run is, and the vocabulary of statements: how an instruction
completes, faults, and what it leaves alone. -/

namespace Sys2Proof.Machine

/-- The chain of open frames below `base` (10_state.md R34, R35 b and c): each frame's count and saved base lie below
it, and the caller's frame is again well linked, down to the outermost one. -/
inductive FrameChain (m : Slots) : Nat → Prop where
  | outermost : FrameChain m 0
  | frame (b : Nat) (room : 3 ≤ b) (count : (Cells.read m (b - 3)).toNat ≤ b - 3)
      (link : (Cells.read m (b - 1)).toNat ≤ b - 3 - (Cells.read m (b - 3)).toNat)
      (caller : FrameChain m (Cells.read m (b - 1)).toNat) : FrameChain m b

/-- What every reachable state keeps: R35, a well-formed configuration, and arrays in canonical form inside their
bounds (R25, R50). -/
structure State.Inv (s : State) : Prop where
  config : s.cfg.WellFormed
  baseTop : s.base ≤ s.top
  topCap : s.top ≤ s.cfg.stackCap
  chain : FrameChain s.S s.base
  memWf : s.mem.wf = true
  memBelow : Cells.below s.cfg.memSize s.mem = true
  slotsWf : Cells.wf s.S = true
  slotsBelow : Cells.below s.cfg.stackCap s.S = true

/-- One step leads from `s` to `t`. -/
def Steps (s t : State) : Prop := step s = .next t

/-- A number of steps lead from `s` to `t`. -/
inductive Reaches (s : State) : State → Prop where
  | here : Reaches s s
  | step (t u : State) (before : Reaches s t) (last : Steps t u) : Reaches s u

/-- A safe run: no reachable state is Faulted. -/
def FaultFree (s : State) : Prop := ∀ t, Reaches s t → ∀ k a, t.status ≠ .faulted k a

/-- Every register outside the operand stack and `ip`, and every byte of memory, is as before. -/
def SameBeyondStack (s t : State) : Prop :=
  t.base = s.base ∧ t.status = s.status ∧ t.cfg = s.cfg ∧ t.timeDraws = s.timeDraws ∧ ∀ a, t.byte a = s.byte a

/-- Every slot of `S` is as before. -/
def SameSlots (s t : State) : Prop := ∀ k, t.slot k = s.slot k

/-- Every slot of `S` but slot `j` is as before. -/
def SameSlotsBut (j : Nat) (s t : State) : Prop := ∀ k, k ≠ j → t.slot k = s.slot k

/-- `i` completes: it pops `n` values (perhaps none) and pushes `v`, which lands in slot `top - n`; every other slot,
dead ones included, keeps its value. -/
def ReplacesBy (i : Instr) (n : Nat) (v : Word) (s : State) : Prop :=
  ∃ t, exec i s = .next t ∧ t.top + n = s.top + 1 ∧ t.slot (s.top - n) = v ∧ SameSlotsBut (s.top - n) s t ∧
    t.ip = s.ip + 1 ∧ SameBeyondStack s t

/-- `i` completes: it pops `n` values and pushes nothing, and `ip` becomes `next`. -/
def PopsTo (i : Instr) (n : Nat) (next : Word) (s : State) : Prop :=
  ∃ t, exec i s = .next t ∧ t.top + n = s.top ∧ SameSlots s t ∧ t.ip = next ∧ SameBeyondStack s t

/-- `i` raises the fault `k` precisely: the state is as before but for the status, `Faulted(k, ip0)`
(60_exceptions.md R214). -/
def FaultsWith (i : Instr) (k : FaultKind) (s : State) : Prop :=
  exec i s = .next { s with status := .faulted k s.ip }

/-- `t` differs from `s` at most in slots that are dead in both (10_state.md R33). -/
def AgreeBelowTop (s t : State) : Prop :=
  t.mem = s.mem ∧ t.top = s.top ∧ t.base = s.base ∧ t.ip = s.ip ∧ t.status = s.status ∧ t.cfg = s.cfg ∧
    t.timeDraws = s.timeDraws ∧ ∀ k, k < s.top → t.slot k = s.slot k

/-- `t` differs from `s` at most in slots outside the frame region `[base, top)` (R28). -/
def AgreeOnFrame (s t : State) : Prop :=
  t.mem = s.mem ∧ t.top = s.top ∧ t.base = s.base ∧ t.ip = s.ip ∧ t.status = s.status ∧ t.cfg = s.cfg ∧
    t.timeDraws = s.timeDraws ∧ ∀ k, s.base ≤ k → k < s.top → t.slot k = s.slot k

/-- A run from `s` to the last state in which `base` never lies below `b`: the callee of a frame at `b`, and the calls it
makes itself (48_call.md R188, R189). -/
inductive RunsAbove (b : Nat) (s : State) : State → Prop where
  | here (above : b ≤ s.base) : RunsAbove b s s
  | step (t u : State) (before : RunsAbove b s t) (last : Steps t u) (above : b ≤ u.base) : RunsAbove b s u

/-- The mnemonics of the instructions that may write `ip` beyond the fetch increment (R22). -/
def ipWriters : List Mnemonic := [.jmp, .jz, .jnz, .jn, .jp, .je, .jne, .jlt, .jgt, .jle, .jge, .call, .ret]

/-- The "raised by" column of 60_exceptions.md R210, for the kinds that an instruction raises. FetchOutOfRange is the
fetch stage's. -/
def mayRaise (i : Instr) : FaultKind → Prop
  | .stackUnderflow => ∃ m, i.mnemonic = some m ∧ m ∉ [Mnemonic.push, .time, .space, .call, .ret, .hlt]
  | .stackOverflow => ∃ m, i.mnemonic = some m ∧ m ∈ [Mnemonic.push, .dup, .time, .space, .call]
  | .invalidCall => i.mnemonic = some .call
  | .arithmeticError => i.mnemonic = some .div ∨ i.mnemonic = some .mod
  | .unknownOpcode b => i = .unassigned b
  | .memoryOutOfRange _ => ∃ m, i.mnemonic = some m ∧ m ∈ [Mnemonic.load, .store, .load8, .store8]
  | .fetchOutOfRange => False
  | .invalidReturn => i.mnemonic = some .ret

end Sys2Proof.Machine
end

