-- ==== Sys2Proof/Certificates/Slice0/Obligations.lean ====
section
/-! DEFINITION. The statements for the provers. Each holds for every configuration, since a state carries its own. Where a
clause is a decision of the spec (D<n> of 92_eei_decisions.md), an inference the spec marks "[derived: ...]", or the model's
choice (assumption log), the docstring says so. Every fault clause commits as 60_exceptions.md R214 says: the roll-back of
`ip` in it is "the spec's own choice" (D8, assumption log 8). -/

open Sys2Proof Sys2Proof.Machine

/-! ## Codec, decoder, byte order -/

/-- 30_encoding.md R72, R73: the field split and the field encoder by their formulas, and the two as inverses (the
spec's inference in R73). -/
def Obligations.FieldCodecFormulasAndInverse : Prop :=
  (∀ w : Word, (splitWord w).opcode.toNat = w.toNat / 2 ^ 56 ∧
    (zextOperand (splitWord w).operand).toNat = w.toNat % 2 ^ 56) ∧
  (∀ (op : Byte) (v : Word), (packFields op v).toNat = op.toNat * 2 ^ 56 + v.toNat % 2 ^ 56) ∧
  (∀ (op : Byte) (v : Word), (splitWord (packFields op v)).opcode = op ∧
    (zextOperand (splitWord (packFields op v)).operand).toNat = v.toNat % 2 ^ 56) ∧
  ∀ w : Word, packFields (splitWord w).opcode (zextOperand (splitWord w).operand) = w

/-- Decode of encode, on the bytes that memory holds, for every well-formed instruction, every operand and every
injective OPCODE_OF; the bytes after the instruction are left over. -/
def Obligations.DecodeOfEncodeIsTheInstruction : Prop :=
  ∀ (o : OpcodeMap) (i : Instr) (rest : List Byte), o.Injective → i.wf o = true →
    decodeBytes o (encodeBytes o i ++ rest) = .ok (i, rest)

/-- Encode of decode, for every word: the opcode byte is kept, and the operand field too for PUSH and CALL; for every
other instruction it is replaced by zero, since nothing reads it (R74). That `encode` writes zero into a field that
nothing reads is the model's choice (DEDUCED, assumption log 19): R74 says only that the bits are ignored. What is
decoded is well formed. -/
def Obligations.EncodeOfDecodeKeepsWhatIsRead : Prop :=
  ∀ (o : OpcodeMap) (w : Word), o.Injective →
    (decodeWord o w).wf o = true ∧
    encode o (decodeWord o w) = packFields (splitWord w).opcode
      (if (splitWord w).opcode = o.byteOf .push ∨ (splitWord w).opcode = o.byteOf .call
        then zextOperand (splitWord w).operand else 0)

/-- R74, for the decoder: two words with the same opcode byte decode alike unless it is PUSH's or CALL's; those two
take the operand field whole. -/
def Obligations.OnlyPushAndCallDecodeTheOperand : Prop :=
  ∀ (o : OpcodeMap) (b : Byte) (p q : Operand), o.Injective →
    (b ≠ o.byteOf .push → b ≠ o.byteOf .call →
      decodeWord o (packFields b (zextOperand p)) = decodeWord o (packFields b (zextOperand q))) ∧
    decodeWord o (packFields (o.byteOf .push) (zextOperand p)) = .push p ∧
    decodeWord o (packFields (o.byteOf .call) (zextOperand p)) = .call p

/-- 40_cycle.md R95: the handler array, its empty entries, and that no step changes it. -/
def Obligations.HandlerArrayFollowsOpcodeOf : Prop :=
  (∀ (o : OpcodeMap) (b : Byte) (m : Mnemonic), o.Injective → (handler o b = some m ↔ o.byteOf m = b)) ∧
  (∀ (o : OpcodeMap) (b : Byte), handler o b = none ↔ ∀ m, o.byteOf m ≠ b) ∧
  ∀ s t : State, step s = .next t → ∀ b, handler t.cfg.opcodes b = handler s.cfg.opcodes b

/-- Words written out from R70 and the default table of R76 decode to their instructions. The default numbering is the
spec's own choice (D1, assumption log 3), so this is a statement about that choice. -/
def Obligations.DefaultNumberingDecodesWrittenWords : Prop :=
  decodeWord OpcodeMap.standard 0x01123456789ABCDE = .push 0x123456789ABCDE ∧
  decodeWord OpcodeMap.standard 0x0300000000000000 = .add ∧
  decodeWord OpcodeMap.standard 0x0E00000000000000 = .shl ∧
  decodeWord OpcodeMap.standard 0x1600000000000000 = .gte ∧
  decodeWord OpcodeMap.standard 0x18FFFFFFFFFFFFFF = .store ∧
  decodeWord OpcodeMap.standard 0x2500000000000000 = .jge ∧
  decodeWord OpcodeMap.standard 0x2700000000000000 = .space ∧
  decodeWord OpcodeMap.standard 0x2800000000000006 = .call 6 ∧
  decodeWord OpcodeMap.standard 0x2A00000000000000 = .hlt ∧
  decodeWord OpcodeMap.standard 0x2B00000000000000 = .unassigned 0x2B

/-- 30_encoding.md R79, R80: every word that the assembler gives is one of the 42 instructions, encoded with operand
zero unless it is PUSH or CALL. The text syntax is the spec's own choice (D19) and the model's (assumption log 25). -/
def Obligations.AssembledWordsAreInstructions : Prop :=
  ∀ (o : OpcodeMap) (src : List Char) (ws : List Word), o.Injective → assemble o src = .ok ws →
    ∀ w ∈ ws, (decodeWord o w).mnemonic ≠ none ∧ encode o (decodeWord o w) = w

/-- 20_memory.md R54: the big-endian program image, byte by byte; the loader writes no other byte. -/
def Obligations.ProgramImageIsBigEndian : Prop :=
  ∀ (ws : List Word) (m : Memory),
    (∀ (i : Nat) (h : i < ws.length) (k : Nat), k < 8 →
      Cells.read (loadImage 0 ws m) (8 * i + k) = ws[i].extractLsb' (56 - 8 * k) 8) ∧
    ∀ a, 8 * ws.length ≤ a → Cells.read (loadImage 0 ws m) a = Cells.read m a

/-- R55: the big-endian fetch by its formula, and that it gives back every loaded program word. That fetch is
big-endian is the spec's own decision D5 (90_conflicts.md C1) and DEDUCED in the model (assumption log 12). -/
def Obligations.FetchReadsBackTheLoadedWord : Prop :=
  (∀ (m : Memory) (addr : Nat),
    (fetchRead m addr).toNat = ∑ k ∈ Finset.range 8, (Cells.read m (addr + k)).toNat * 2 ^ (8 * (7 - k))) ∧
  ∀ (ws : List Word) (m : Memory) (i : Nat) (h : i < ws.length), fetchRead (loadImage 0 ws m) (8 * i) = ws[i]

/-- R57: the little-endian reads and writes by their formulas; a write changes no byte outside its own. -/
def Obligations.DataAccessIsLittleEndian : Prop :=
  (∀ (m : Memory) (addr : Nat),
    (memRead m addr 8).toNat = ∑ k ∈ Finset.range 8, (Cells.read m (addr + k)).toNat * 2 ^ (8 * k)) ∧
  (∀ (m : Memory) (addr : Nat) (v : Word),
    (∀ k, k < 8 → Cells.read (memWrite m addr 8 v) (addr + k) = v.extractLsb' (8 * k) 8) ∧
    ∀ a, a < addr ∨ addr + 8 ≤ a → Cells.read (memWrite m addr 8 v) a = Cells.read m a) ∧
  (∀ (m : Memory) (addr : Nat), memRead m addr 1 = (Cells.read m addr).setWidth 64) ∧
  ∀ (m : Memory) (addr : Nat) (v : Word),
    Cells.read (memWrite m addr 1 v) addr = v.extractLsb' 0 8 ∧
    ∀ a, a ≠ addr → Cells.read (memWrite m addr 1 v) a = Cells.read m a

/-- R58, first point (the spec's inference): after a STORE of `v` at relative address `a`, LOAD8 at `a + k` gives byte
`k` of `v`, in any later state with that memory. -/
def Obligations.StoreThenLoad8ReadsItsByte : Prop :=
  ∀ (s t u : State) (k : Nat), s.base + 2 ≤ s.top →
    s.cfg.dataBase + (s.slot (s.top - 1)).toNat + 8 ≤ s.cfg.memSize → exec .store s = .next t →
    u.mem = t.mem → u.cfg = t.cfg → u.base + 1 ≤ u.top → k < 8 →
    (u.slot (u.top - 1)).toNat = (s.slot (s.top - 1)).toNat + k →
    ReplacesBy .load8 1 (((s.slot (s.top - 2)).extractLsb' (8 * k) 8).setWidth 64) u

/-- R58, second point (the spec's inference): after a STORE8 of `b` at `a + k`, LOAD at `a` gives the word that was
there with byte `k` replaced. -/
def Obligations.Store8ThenLoadReplacesOneByte : Prop :=
  ∀ (s t u : State) (k : Nat), s.base + 2 ≤ s.top →
    s.cfg.dataBase + (s.slot (s.top - 1)).toNat + 1 ≤ s.cfg.memSize → exec .store8 s = .next t →
    u.mem = t.mem → u.cfg = t.cfg → u.base + 1 ≤ u.top → k < 8 →
    (s.slot (s.top - 1)).toNat = (u.slot (u.top - 1)).toNat + k →
    s.cfg.dataBase + (u.slot (u.top - 1)).toNat + 8 ≤ s.cfg.memSize →
    ∃ v : Word, ReplacesBy .load 1 v u ∧ ∀ j, j < 8 →
      v.extractLsb' (8 * j) 8 =
        if j = k then (s.slot (s.top - 2)).extractLsb' 0 8
        else s.byte (s.cfg.dataBase + (u.slot (u.top - 1)).toNat + j)

/-! ## Results, frames and faults of the instructions -/

/-- 41_stack.md R110. -/
def Obligations.PushResultAndOverflow : Prop :=
  ∀ (imm : Operand) (s : State),
    (s.top < s.cfg.stackCap → ReplacesBy (.push imm) 0 (BitVec.ofNat 64 imm.toNat) s) ∧
    (s.cfg.stackCap ≤ s.top → FaultsWith (.push imm) .stackOverflow s)

/-- R111. -/
def Obligations.PopResultAndUnderflow : Prop :=
  ∀ s : State,
    (s.base + 1 ≤ s.top → PopsTo .pop 1 (s.ip + 1) s) ∧
    (s.top < s.base + 1 → FaultsWith .pop .stackUnderflow s)

/-- R112: underflow is checked first, by the spec's decision D14 (assumption log 15). -/
def Obligations.DupResultAndFaults : Prop :=
  ∀ s : State,
    (s.base + 1 ≤ s.top → s.top < s.cfg.stackCap → ReplacesBy .dup 0 (s.slot (s.top - 1)) s) ∧
    (s.top < s.base + 1 → FaultsWith .dup .stackUnderflow s) ∧
    (s.base + 1 ≤ s.top → s.cfg.stackCap ≤ s.top → FaultsWith .dup .stackOverflow s)

/-- R113: no overflow, even at `top = C`. -/
def Obligations.SwapResultAndUnderflow : Prop :=
  ∀ s : State,
    (s.base + 2 ≤ s.top → ∃ t, exec .swap s = .next t ∧ t.top = s.top ∧
      t.slot (s.top - 2) = s.slot (s.top - 1) ∧ t.slot (s.top - 1) = s.slot (s.top - 2) ∧
      (∀ k, k ≠ s.top - 2 → k ≠ s.top - 1 → t.slot k = s.slot k) ∧ t.ip = s.ip + 1 ∧ SameBeyondStack s t) ∧
    (s.top < s.base + 2 → FaultsWith .swap .stackUnderflow s)

/-- 42_arith.md R120, R121, R122: the exact result, wrapped. -/
def Obligations.AddSubMulWrapTheExactResult : Prop :=
  ∀ s : State,
    (s.base + 2 ≤ s.top →
      ReplacesBy .add 2 (BitVec.ofNat 64 ((s.slot (s.top - 2)).toNat + (s.slot (s.top - 1)).toNat)) s ∧
      ReplacesBy .sub 2 (BitVec.ofInt 64 (((s.slot (s.top - 2)).toNat : Int) - ((s.slot (s.top - 1)).toNat : Int))) s ∧
      ReplacesBy .mul 2 (BitVec.ofNat 64 ((s.slot (s.top - 2)).toNat * (s.slot (s.top - 1)).toNat)) s) ∧
    (s.top < s.base + 2 →
      FaultsWith .add .stackUnderflow s ∧ FaultsWith .sub .stackUnderflow s ∧ FaultsWith .mul .stackUnderflow s)

/-- R123, R124: underflow is checked before the zero divisor. -/
def Obligations.DivModResultsAndFaults : Prop :=
  ∀ s : State,
    (s.base + 2 ≤ s.top → s.slot (s.top - 1) ≠ 0 →
      ReplacesBy .div 2 (BitVec.ofNat 64 ((s.slot (s.top - 2)).toNat / (s.slot (s.top - 1)).toNat)) s ∧
      ReplacesBy .mod 2 (BitVec.ofNat 64 ((s.slot (s.top - 2)).toNat -
        (s.slot (s.top - 1)).toNat * ((s.slot (s.top - 2)).toNat / (s.slot (s.top - 1)).toNat))) s) ∧
    (s.base + 2 ≤ s.top → s.slot (s.top - 1) = 0 →
      FaultsWith .div .arithmeticError s ∧ FaultsWith .mod .arithmeticError s) ∧
    (s.top < s.base + 2 → FaultsWith .div .stackUnderflow s ∧ FaultsWith .mod .stackUnderflow s)

/-- R127, second point (the spec's inference): quotient and remainder of one pair of operands fit together. -/
def Obligations.DivAndModSatisfyTheDivisionLaw : Prop :=
  ∀ s : State, s.base + 2 ≤ s.top → s.slot (s.top - 1) ≠ 0 →
    ∃ q r : Word, ReplacesBy .div 2 q s ∧ ReplacesBy .mod 2 r s ∧
      (s.slot (s.top - 2)).toNat = (s.slot (s.top - 1)).toNat * q.toNat + r.toNat ∧
      r.toNat < (s.slot (s.top - 1)).toNat

/-- R125, R126. -/
def Obligations.IncDecResultsAndUnderflow : Prop :=
  ∀ s : State,
    (s.base + 1 ≤ s.top →
      ReplacesBy .inc 1 (BitVec.ofNat 64 ((s.slot (s.top - 1)).toNat + 1)) s ∧
      ReplacesBy .dec 1 (BitVec.ofInt 64 (((s.slot (s.top - 1)).toNat : Int) - 1)) s) ∧
    (s.top < s.base + 1 → FaultsWith .inc .stackUnderflow s ∧ FaultsWith .dec .stackUnderflow s)

/-- 43_bitwise.md R130, R131, R132. -/
def Obligations.AndOrXorResultsAndUnderflow : Prop :=
  ∀ s : State,
    (s.base + 2 ≤ s.top →
      ReplacesBy .and 2 (BitVec.ofNat 64 ((s.slot (s.top - 2)).toNat &&& (s.slot (s.top - 1)).toNat)) s ∧
      ReplacesBy .or 2 (BitVec.ofNat 64 ((s.slot (s.top - 2)).toNat ||| (s.slot (s.top - 1)).toNat)) s ∧
      ReplacesBy .xor 2 (BitVec.ofNat 64 ((s.slot (s.top - 2)).toNat ^^^ (s.slot (s.top - 1)).toNat)) s) ∧
    (s.top < s.base + 2 →
      FaultsWith .and .stackUnderflow s ∧ FaultsWith .or .stackUnderflow s ∧ FaultsWith .xor .stackUnderflow s)

/-- R133. -/
def Obligations.NotResultAndUnderflow : Prop :=
  ∀ s : State,
    (s.base + 1 ≤ s.top → ReplacesBy .not 1 (BitVec.ofNat 64 (2 ^ 64 - 1 - (s.slot (s.top - 1)).toNat)) s) ∧
    (s.top < s.base + 1 → FaultsWith .not .stackUnderflow s)

/-- R134 (the spec's decision D13, assumption log 11), R135, R136: the exact shift by the whole count, or by the count
modulo 64, for every count. -/
def Obligations.ShiftsFollowTheShiftMode : Prop :=
  ∀ (s : State) (n : Nat),
    (s.cfg.shiftMode = .full → n = (s.slot (s.top - 1)).toNat) →
    (s.cfg.shiftMode = .masked6 → n = (s.slot (s.top - 1)).toNat % 64) →
    (s.base + 2 ≤ s.top →
      ReplacesBy .shl 2 (BitVec.ofNat 64 ((s.slot (s.top - 2)).toNat * 2 ^ n)) s ∧
      ReplacesBy .shr 2 (BitVec.ofNat 64 ((s.slot (s.top - 2)).toNat / 2 ^ n)) s) ∧
    (s.top < s.base + 2 → FaultsWith .shl .stackUnderflow s ∧ FaultsWith .shr .stackUnderflow s)

/-- 44_compare.md R140 to R144: 1 or 0, compared unsigned. -/
def Obligations.ComparisonsPushOneOrZero : Prop :=
  ∀ s : State,
    (s.base + 2 ≤ s.top →
      ReplacesBy .eq 2 (if (s.slot (s.top - 2)).toNat = (s.slot (s.top - 1)).toNat then 1 else 0) s ∧
      ReplacesBy .lt 2 (if (s.slot (s.top - 2)).toNat < (s.slot (s.top - 1)).toNat then 1 else 0) s ∧
      ReplacesBy .gt 2 (if (s.slot (s.top - 2)).toNat > (s.slot (s.top - 1)).toNat then 1 else 0) s ∧
      ReplacesBy .lte 2 (if (s.slot (s.top - 2)).toNat ≤ (s.slot (s.top - 1)).toNat then 1 else 0) s ∧
      ReplacesBy .gte 2 (if (s.slot (s.top - 2)).toNat ≥ (s.slot (s.top - 1)).toNat then 1 else 0) s) ∧
    (s.top < s.base + 2 →
      FaultsWith .eq .stackUnderflow s ∧ FaultsWith .lt .stackUnderflow s ∧ FaultsWith .gt .stackUnderflow s ∧
      FaultsWith .lte .stackUnderflow s ∧ FaultsWith .gte .stackUnderflow s)

/-- 45_loadstore.md R150, R152: the little-endian value, and the faults in their order. MemoryOutOfRange, the sum
without wrap and the order are the spec's decisions D7 and D16 (assumption logs 14, 15). -/
def Obligations.LoadsReadTheDataSegment : Prop :=
  ∀ s : State,
    (s.base + 1 ≤ s.top → s.cfg.dataBase + (s.slot (s.top - 1)).toNat + 8 ≤ s.cfg.memSize →
      ReplacesBy .load 1 (BitVec.ofNat 64 (∑ k ∈ Finset.range 8,
        (s.byte (s.cfg.dataBase + (s.slot (s.top - 1)).toNat + k)).toNat * 2 ^ (8 * k))) s) ∧
    (s.base + 1 ≤ s.top → s.cfg.dataBase + (s.slot (s.top - 1)).toNat + 1 ≤ s.cfg.memSize →
      ReplacesBy .load8 1 ((s.byte (s.cfg.dataBase + (s.slot (s.top - 1)).toNat)).setWidth 64) s) ∧
    (s.base + 1 ≤ s.top → s.cfg.memSize < s.cfg.dataBase + (s.slot (s.top - 1)).toNat + 8 →
      FaultsWith .load (.memoryOutOfRange (s.slot (s.top - 1))) s) ∧
    (s.base + 1 ≤ s.top → s.cfg.memSize < s.cfg.dataBase + (s.slot (s.top - 1)).toNat + 1 →
      FaultsWith .load8 (.memoryOutOfRange (s.slot (s.top - 1))) s) ∧
    (s.top < s.base + 1 → FaultsWith .load .stackUnderflow s ∧ FaultsWith .load8 .stackUnderflow s)

/-- R151, R153: the bytes stored, from the address `dataBase + a`, no other byte, and no slot. The faults are the
spec's decisions D7 and D16 (assumption logs 14, 15). -/
def Obligations.StoresWriteOnlyTheirBytes : Prop :=
  ∀ s : State,
    (s.base + 2 ≤ s.top → s.cfg.dataBase + (s.slot (s.top - 1)).toNat + 8 ≤ s.cfg.memSize →
      ∃ t, exec .store s = .next t ∧ t.top + 2 = s.top ∧ SameSlots s t ∧ t.ip = s.ip + 1 ∧ t.base = s.base ∧
        t.status = s.status ∧ t.cfg = s.cfg ∧ t.timeDraws = s.timeDraws ∧
        (∀ k, k < 8 → t.byte (s.cfg.dataBase + (s.slot (s.top - 1)).toNat + k) =
          (s.slot (s.top - 2)).extractLsb' (8 * k) 8) ∧
        ∀ e, e < s.cfg.dataBase + (s.slot (s.top - 1)).toNat ∨
          s.cfg.dataBase + (s.slot (s.top - 1)).toNat + 8 ≤ e → t.byte e = s.byte e) ∧
    (s.base + 2 ≤ s.top → s.cfg.dataBase + (s.slot (s.top - 1)).toNat + 1 ≤ s.cfg.memSize →
      ∃ t, exec .store8 s = .next t ∧ t.top + 2 = s.top ∧ SameSlots s t ∧ t.ip = s.ip + 1 ∧ t.base = s.base ∧
        t.status = s.status ∧ t.cfg = s.cfg ∧ t.timeDraws = s.timeDraws ∧
        t.byte (s.cfg.dataBase + (s.slot (s.top - 1)).toNat) = (s.slot (s.top - 2)).extractLsb' 0 8 ∧
        ∀ e, e ≠ s.cfg.dataBase + (s.slot (s.top - 1)).toNat → t.byte e = s.byte e) ∧
    (s.base + 2 ≤ s.top → s.cfg.memSize < s.cfg.dataBase + (s.slot (s.top - 1)).toNat + 8 →
      FaultsWith .store (.memoryOutOfRange (s.slot (s.top - 1))) s) ∧
    (s.base + 2 ≤ s.top → s.cfg.memSize < s.cfg.dataBase + (s.slot (s.top - 1)).toNat + 1 →
      FaultsWith .store8 (.memoryOutOfRange (s.slot (s.top - 1))) s) ∧
    (s.top < s.base + 2 → FaultsWith .store .stackUnderflow s ∧ FaultsWith .store8 .stackUnderflow s)

/-- 46_branch.md R160. -/
def Obligations.JmpResultAndUnderflow : Prop :=
  ∀ s : State,
    (s.base + 1 ≤ s.top → PopsTo .jmp 1 (s.slot (s.top - 1)) s) ∧
    (s.top < s.base + 1 → FaultsWith .jmp .stackUnderflow s)

/-- R161, R162. -/
def Obligations.JzJnzBranchOnZero : Prop :=
  ∀ s : State,
    (s.base + 2 ≤ s.top →
      PopsTo .jz 2 (if (s.slot (s.top - 2)).toNat = 0 then s.slot (s.top - 1) else s.ip + 1) s ∧
      PopsTo .jnz 2 (if (s.slot (s.top - 2)).toNat ≠ 0 then s.slot (s.top - 1) else s.ip + 1) s) ∧
    (s.top < s.base + 2 → FaultsWith .jz .stackUnderflow s ∧ FaultsWith .jnz .stackUnderflow s)

/-- R163, R164: the bit tests; so `2^63` takes neither branch. -/
def Obligations.JnJpBranchOnTheBitTest : Prop :=
  ∀ s : State,
    (s.base + 2 ≤ s.top →
      PopsTo .jn 2 (if (s.slot (s.top - 2)).toNat / 2 ^ 63 = 1 ∧ (s.slot (s.top - 2)).toNat % 2 ^ 63 ≠ 0
        then s.slot (s.top - 1) else s.ip + 1) s ∧
      PopsTo .jp 2 (if (s.slot (s.top - 2)).toNat / 2 ^ 63 = 0 ∧ (s.slot (s.top - 2)).toNat % 2 ^ 63 ≠ 0
        then s.slot (s.top - 1) else s.ip + 1) s) ∧
    (s.top < s.base + 2 → FaultsWith .jn .stackUnderflow s ∧ FaultsWith .jp .stackUnderflow s)

/-- R165 to R170: `a = S[top-3]` against `b = S[top-2]`, unsigned. -/
def Obligations.CompareBranchesAreUnsigned : Prop :=
  ∀ s : State,
    (s.base + 3 ≤ s.top →
      PopsTo .je 3 (if (s.slot (s.top - 3)).toNat = (s.slot (s.top - 2)).toNat
        then s.slot (s.top - 1) else s.ip + 1) s ∧
      PopsTo .jne 3 (if (s.slot (s.top - 3)).toNat ≠ (s.slot (s.top - 2)).toNat
        then s.slot (s.top - 1) else s.ip + 1) s ∧
      PopsTo .jlt 3 (if (s.slot (s.top - 3)).toNat < (s.slot (s.top - 2)).toNat
        then s.slot (s.top - 1) else s.ip + 1) s ∧
      PopsTo .jgt 3 (if (s.slot (s.top - 3)).toNat > (s.slot (s.top - 2)).toNat
        then s.slot (s.top - 1) else s.ip + 1) s ∧
      PopsTo .jle 3 (if (s.slot (s.top - 3)).toNat ≤ (s.slot (s.top - 2)).toNat
        then s.slot (s.top - 1) else s.ip + 1) s ∧
      PopsTo .jge 3 (if (s.slot (s.top - 3)).toNat ≥ (s.slot (s.top - 2)).toNat
        then s.slot (s.top - 1) else s.ip + 1) s) ∧
    (s.top < s.base + 3 →
      FaultsWith .je .stackUnderflow s ∧ FaultsWith .jne .stackUnderflow s ∧ FaultsWith .jlt .stackUnderflow s ∧
      FaultsWith .jgt .stackUnderflow s ∧ FaultsWith .jle .stackUnderflow s ∧ FaultsWith .jge .stackUnderflow s)

/-- 47_env.md R180. That the draw is `Config.wallClock` of the model's counter, and that TIME advances the counter, is
the model's form of the free value (assumption log 7). -/
def Obligations.TimePushesAFreshDraw : Prop :=
  ∀ s : State,
    (s.top < s.cfg.stackCap → ∃ t, exec .time s = .next t ∧ t.top = s.top + 1 ∧
      t.slot s.top = Config.wallClock s.timeDraws ∧ SameSlotsBut s.top s t ∧ t.ip = s.ip + 1 ∧ t.base = s.base ∧
      t.status = s.status ∧ t.cfg = s.cfg ∧ t.timeDraws = s.timeDraws + 1 ∧ ∀ a, t.byte a = s.byte a) ∧
    (s.cfg.stackCap ≤ s.top → FaultsWith .time .stackOverflow s)

/-- R181. That a `dataBase` of `2^64` or more, which no well-formed configuration has, is pushed modulo `2^64` is the
model's (assumption log 17). -/
def Obligations.SpaceResultAndOverflow : Prop :=
  ∀ s : State,
    (s.top < s.cfg.stackCap → ReplacesBy .space 0 (BitVec.ofNat 64 (s.cfg.romSize + s.cfg.codeSize)) s) ∧
    (s.cfg.stackCap ≤ s.top → FaultsWith .space .stackOverflow s)

/-- 48_call.md R186: the new frame slot by slot, and the two faults in their order (D16, assumption log 15). That a
`base` of `2^64` or more, which the invariant rules out, is saved modulo `2^64` is the model's (assumption log 16). -/
def Obligations.CallBuildsTheFrame : Prop :=
  ∀ (target : Operand) (s : State) (n : Nat), n = (s.slot (s.top - 1)).toNat →
    (s.base + (n + 1) ≤ s.top → s.top + 2 + n ≤ s.cfg.stackCap →
      ∃ t, exec (.call target) s = .next t ∧ t.slot s.top = s.ip + 1 ∧
        t.slot (s.top + 1) = BitVec.ofNat 64 s.base ∧ t.base = s.top + 2 ∧ t.top = t.base + n ∧
        (∀ j, j < n → t.slot (t.base + j) = s.slot (t.base - 3 - n + j)) ∧
        (∀ k, k < s.top ∨ t.top ≤ k → t.slot k = s.slot k) ∧ t.ip = BitVec.ofNat 64 target.toNat ∧
        t.status = s.status ∧ t.cfg = s.cfg ∧ t.timeDraws = s.timeDraws ∧ ∀ a, t.byte a = s.byte a) ∧
    (s.top < s.base + 1 ∨ s.top < s.base + (n + 1) → FaultsWith (.call target) .invalidCall s) ∧
    (s.base + (n + 1) ≤ s.top → s.cfg.stackCap < s.top + 2 + n → FaultsWith (.call target) .stackOverflow s)

/-- R187: what RET restores, the value it returns, and when it is InvalidReturn (the spec's decision D15, assumption
log 15). -/
def Obligations.RetUnwindsTheFrame : Prop :=
  ∀ (s : State) (n saved : Nat), n = (s.slot (s.base - 3)).toNat → saved = (s.slot (s.base - 1)).toNat →
    (3 ≤ s.base → n ≤ s.base - 3 → saved ≤ s.base - 3 - n → s.base < s.top →
      ∃ t, exec .ret s = .next t ∧ t.top = s.base - 3 - n + 1 ∧ t.base = saved ∧ t.ip = s.slot (s.base - 2) ∧
        t.slot (s.base - 3 - n) = s.slot (s.top - 1) ∧ SameSlotsBut (s.base - 3 - n) s t ∧
        t.status = s.status ∧ t.cfg = s.cfg ∧ t.timeDraws = s.timeDraws ∧ ∀ a, t.byte a = s.byte a) ∧
    (3 ≤ s.base → n ≤ s.base - 3 → saved ≤ s.base - 3 - n → s.top ≤ s.base →
      ∃ t, exec .ret s = .next t ∧ t.top = s.base - 3 - n ∧ t.base = saved ∧ t.ip = s.slot (s.base - 2) ∧
        SameSlots s t ∧ t.status = s.status ∧ t.cfg = s.cfg ∧ t.timeDraws = s.timeDraws ∧
        ∀ a, t.byte a = s.byte a) ∧
    (s.base < 3 ∨ s.base - 3 < n ∨ s.base - 3 - n < saved → FaultsWith .ret .invalidReturn s)

/-- 49_halt.md R200: everything but `ip` and the status is kept, and no further instruction runs. -/
def Obligations.HltHaltsAndKeepsTheRest : Prop :=
  ∀ s : State, exec .hlt s = .next { s with ip := s.ip + 1, status := .halted .hlt } ∧
    ∀ t, step { s with ip := s.ip + 1, status := .halted .hlt } ≠ .next t

/-- R201, under each UNKNOWN_OPCODE_POLICY (the spec's decision D9, assumption log 10). -/
def Obligations.UnknownOpcodeFollowsThePolicy : Prop :=
  ∀ (b : Byte) (s : State),
    (s.cfg.unknownPolicy = .halt →
      exec (.unassigned b) s = .next { s with ip := s.ip + 1, status := .halted .unknownOpcode }) ∧
    (s.cfg.unknownPolicy = .fault → FaultsWith (.unassigned b) (.unknownOpcode b) s)

/-! ## The step and the whole machine -/

/-- 40_cycle.md R92: when the 8 bytes at `8 * ip` decode to an instruction and the fetch is in range, a Running core's
step is that instruction's handler on the state before the fetch increment; the handler itself applies the increment,
or rolls back by not applying it (R93, R214). -/
def Obligations.StepRunsTheDecodedInstruction : Prop :=
  ∀ (s : State) (i : Instr), s.status = .running → 8 * s.ip.toNat + 8 ≤ s.cfg.romSize + s.cfg.codeSize →
    i.wf s.cfg.opcodes = true →
    decodeBytes s.cfg.opcodes (Memory.readBytes s.mem (8 * s.ip.toNat) 8) = .ok (i, []) →
    step s = exec i s

/-- 20_memory.md R56: a fetch outside ROM and Code is FetchOutOfRange, whatever memory holds. "The limit and the fault
kind are this spec's choices" (D6, assumption log 13). -/
def Obligations.FetchOutsideRomAndCodeFaults : Prop :=
  ∀ s : State, s.status = .running → s.cfg.romSize + s.cfg.codeSize < 8 * s.ip.toNat + 8 →
    step s = .next { s with status := .faulted .fetchOutOfRange s.ip }

/-- 46_branch.md R171 (the spec's inference, from its decision D6), for JMP: an unfetchable target is taken, and the
next step faults with `faultIp = target`. -/
def Obligations.UnfetchableJumpFaultsOneStepLater : Prop :=
  ∀ s : State, s.status = .running → 8 * s.ip.toNat + 8 ≤ s.cfg.dataBase →
    decodeWord s.cfg.opcodes (fetchRead s.mem (8 * s.ip.toNat)) = .jmp → s.base + 1 ≤ s.top →
    s.cfg.dataBase < 8 * (s.slot (s.top - 1)).toNat + 8 →
    ∃ t, step s = .next t ∧ t.status = .running ∧ t.ip = s.slot (s.top - 1) ∧ t.top + 1 = s.top ∧
      step t = .next { t with status := .faulted .fetchOutOfRange (s.slot (s.top - 1)) }

/-- 40_cycle.md R96: a Halted or Faulted core has no step. -/
def Obligations.StoppedCoreHasNoStep : Prop :=
  ∀ s : State, s.status ≠ .running → ∀ t, step s ≠ .next t

/-- R90: a Running core always steps, and in one of the four ways. -/
def Obligations.RunningCoreStepsInFourWays : Prop :=
  ∀ s : State, s.status = .running → ∃ t, step s = .next t ∧
    (t.status = .running ∨
      (t.status = .halted .hlt ∧ decodeWord s.cfg.opcodes (fetchRead s.mem (8 * s.ip.toNat)) = .hlt) ∨
      (t.status = .halted .unknownOpcode ∧ s.cfg.unknownPolicy = .halt ∧
        handler s.cfg.opcodes (splitWord (fetchRead s.mem (8 * s.ip.toNat))).opcode = none) ∨
      ∃ k, t.status = .faulted k s.ip)

/-- 60_exceptions.md R214: the committed state of every fault, for every step. That `ip` rolls back is "the spec's own
choice" (D8) and DEDUCED in the model (assumption log 8). -/
def Obligations.FaultsArePrecise : Prop :=
  ∀ (s t : State) (k : FaultKind) (a : Word), step s = .next t → t.status = .faulted k a →
    a = s.ip ∧ t = { s with status := .faulted k s.ip }

/-- R210, the "raised by" column: an instruction raises no other kind of fault. -/
def Obligations.InstructionsRaiseOnlyTheirFaults : Prop :=
  ∀ (i : Instr) (s t : State) (k : FaultKind) (a : Word), s.status = .running → exec i s = .next t →
    t.status = .faulted k a → mayRaise i k

/-- 10_state.md R22: apart from the jumps, CALL and RET, an instruction that does not fault leaves `ip` one further. -/
def Obligations.OnlyControlTransfersWriteIp : Prop :=
  ∀ (i : Instr) (s t : State), s.status = .running → exec i s = .next t →
    (∀ m, i.mnemonic = some m → m ∉ ipWriters) → (∀ k a, t.status ≠ .faulted k a) → t.ip = s.ip + 1

/-- R28: only CALL and RET write `base`. -/
def Obligations.OnlyCallAndRetWriteBase : Prop :=
  ∀ (i : Instr) (s t : State), exec i s = .next t → t.base ≠ s.base → i = .ret ∨ ∃ target, i = .call target

/-- R28, R35: apart from RET, no instruction writes a slot below `base`. -/
def Obligations.SlotsBelowBaseAreKept : Prop :=
  ∀ (i : Instr) (s t : State), i ≠ .ret → s.base ≤ s.top → exec i s = .next t →
    ∀ k, k < s.base → t.slot k = s.slot k

/-- R33: no step reads a dead slot. Two states that differ only in dead slots step alike, into states that again differ
only in dead slots. Both states take the same TIME draw (assumption log 7). -/
def Obligations.DeadSlotsAreNeverRead : Prop :=
  ∀ s t s' : State, s.base ≤ s.top → AgreeBelowTop s t → step s = .next s' →
    ∃ t', step t = .next t' ∧ AgreeBelowTop s' t'

/-- Apart from RET, no instruction reads a slot outside its frame: for the instructions of 10_state.md R28 by that
rule; for CALL because its arguments and count lie in the caller's frame region (48_call.md R185, R186); and only RET
reads the frame metadata below `base` (10_state.md R38). R28's own sentence, "Only CALL and RET read slots below
`base`", leaves room for CALL, so that CALL does not is an inference. Both states take the same TIME draw (assumption
log 7). -/
def Obligations.OnlyRetReadsBelowTheFrame : Prop :=
  ∀ (i : Instr) (s t s' : State), i ≠ .ret → s.base ≤ s.top → AgreeOnFrame s t → exec i s = .next s' →
    ∃ t', exec i t = .next t' ∧ AgreeOnFrame s' t'

/-- 20_memory.md R53 (the spec's inference), 10_state.md R37: no run changes the configuration or a byte of ROM or
Code, from any state. -/
def Obligations.NoRunChangesRomOrCode : Prop :=
  ∀ s t : State, Reaches s t → t.cfg = s.cfg ∧ ∀ a, a < s.cfg.dataBase → t.byte a = s.byte a

/-- R64 (the spec's inference): in every run of a loaded program, fetch sees the program as it was loaded. -/
def Obligations.EveryRunFetchesTheLoadedProgram : Prop :=
  ∀ (vm : Vm) (t : State), vm.program.length ≤ vm.cfg.romWords → Reaches vm.launchState t →
    ∀ (i : Nat) (h : i < vm.program.length), fetchRead t.mem (8 * i) = vm.program[i]

/-- 10_state.md R35 (the spec's inference), R25, 20_memory.md R50: every step keeps the invariant, from every state
that meets it. -/
def Obligations.EveryStepKeepsTheInvariant : Prop :=
  ∀ s t : State, s.Inv → step s = .next t → t.Inv

/-- The state after reset meets the invariant. The configuration it carries is the spec's default column (assumption
log 2), and its slots and memory are the model's choice (logs 4, 6). -/
def Obligations.ResetMeetsTheInvariant : Prop := State.reset.Inv

/-- Every launch of a constructed VM meets the invariant: R35 (the spec's inference) for every run-start state of R36.
It rests on `top` and `base` being 0 there, the spec's decision D10 (DESIGN CHOICE, assumption log 5), and on no slot
being listed there, the model's choice (DESIGN CHOICE, assumption log 6). -/
def Obligations.LaunchMeetsTheInvariant : Prop :=
  ∀ vm : Vm, vm.cfg.WellFormed → vm.mem = vm.cfg.initMem → vm.program.length ≤ vm.cfg.romWords →
    vm.launchState.Inv

/-- 48_call.md R187: where the invariant holds, RET is InvalidReturn only in the outermost frame. -/
def Obligations.RetFailsOnlyInTheOutermostFrame : Prop :=
  ∀ s : State, s.Inv → s.base ≠ 0 →
    ∃ t, exec .ret s = .next t ∧ t.status = s.status ∧ t.base ≤ t.top ∧ t.top < s.base ∧ t.ip = s.slot (s.base - 2)

/-- R188, R189 (the spec's inference): a CALL and the RET of its frame, with any run between them that stays at or
above that frame (nested calls included): the caller's `base`, return address and slots are back, the arguments and the
count are gone, and the callee's top value, if it has one, is returned. -/
def Obligations.MatchedCallAndRetRestoreTheCaller : Prop :=
  ∀ (s s1 s2 : State) (target : Operand) (n : Nat), s.Inv → n = (s.slot (s.top - 1)).toNat →
    s.base + (n + 1) ≤ s.top → s.top + 2 + n ≤ s.cfg.stackCap → exec (.call target) s = .next s1 →
    RunsAbove s1.base s1 s2 → s2.base = s1.base →
    ∃ t, exec .ret s2 = .next t ∧ t.base = s.base ∧ t.ip = s.ip + 1 ∧
      t.top = s.top - 1 - n + (if s2.base < s2.top then 1 else 0) ∧
      (∀ k, k < s.top - 1 - n → t.slot k = s.slot k) ∧
      (s2.base < s2.top → t.slot (s.top - 1 - n) = s2.slot (s2.top - 1))

/-! ## The host's calls -/

/-- 60_exceptions.md R233. That every byte is then at INIT_MEM is the spec's decision D11 (DESIGN CHOICE, assumption
log 4). -/
def Obligations.ConstructChecksTheMemorySize : Prop :=
  ∀ cfg : Config,
    (cfg.memSize < cfg.romSize + cfg.codeSize + cfg.dataSize → Vm.construct cfg = .fault .constructionError) ∧
    (cfg.romSize + cfg.codeSize + cfg.dataSize ≤ cfg.memSize →
      ∃ vm, Vm.construct cfg = .next vm ∧ vm.cfg = cfg ∧ vm.program = [] ∧ vm.core = none ∧
        ∀ k, Cells.read vm.mem k = Cells.read cfg.initMem k)

/-- R234. The capacity is the spec's decision D23; that a later append is refused is D22 (assumption log 20). -/
def Obligations.AppendStopsAtRomCapacity : Prop :=
  ∀ (vm : Vm) (w : Word),
    (vm.core = none → vm.program.length < vm.cfg.romSize / 8 →
      Vm.append vm w = .next { vm with program := vm.program ++ [w] }) ∧
    (vm.core = none → vm.cfg.romSize / 8 ≤ vm.program.length → Vm.append vm w = .fault .programTooLarge) ∧
    (vm.core ≠ none → Vm.append vm w = .refused .appendAfterRun)

/-- 70_reset_and_hazards.md R241, 60 R235: the start of a run, register by register and byte by byte; a second run is
refused (D22, assumption log 20). The run-start values of the registers are the spec's decision D10 (assumption log 5).
-/
def Obligations.RunStartsFromTheLoadedImage : Prop :=
  ∀ vm : Vm,
    (vm.core = none → ∃ s, Vm.start vm = .next { vm with core := some s } ∧
      s.ip = 0 ∧ s.top = 0 ∧ s.base = 0 ∧ s.status = .running ∧ s.cfg = vm.cfg ∧
      (∀ (i : Nat) (h : i < vm.program.length) (k : Nat), k < 8 →
        s.byte (8 * i + k) = vm.program[i].extractLsb' (56 - 8 * k) 8) ∧
      ∀ a, 8 * vm.program.length ≤ a → s.byte a = Cells.read vm.mem a) ∧
    (vm.core ≠ none → Vm.start vm = .refused .runAgain)

/-- R235, R98: for given TIME draws, `run()` returns at most one outcome, with one final state, which is not Running.
R98 makes the step a function only "given `t`" (D17); here the draws are given because every run takes the same opaque
sequence `Config.wallClock` from counter 0 (DESIGN CHOICE, assumption log 7), so this says nothing of two runs under
different clocks. The bound on the turns of the loop is the caller's (DESIGN CHOICE, assumption log 24). -/
def Obligations.RunOutcomeIsUnique : Prop :=
  ∀ (vm : Vm) (o o' : Status) (t t' : State), vm.Returns o t → vm.Returns o' t' →
    o = o' ∧ t = t' ∧ t.status = o ∧ o ≠ .running

/-- R236, R33: introspection answers live slots and bytes as they are; a dead slot answers whatever value is supplied
(the spec's decision D21; assumption log 21). R220: a run whose loop stops after some turns returns its outcome, and
its final state, the registers included, stays in the VM, where introspection reads it. That registers are read at all
is said by R220 and not by R236 (assumption log 21). -/
def Obligations.IntrospectionReadsSlotsAndBytes : Prop :=
  (∀ (vm : Vm) (s : State) (k i n : Nat) (x : Word) (g : Registers), vm.core = some s →
    (k < vm.cfg.stackCap → k < s.top → Vm.inspectSlot vm k x = .next (s.slot k)) ∧
    (k < vm.cfg.stackCap → s.top ≤ k → Vm.inspectSlot vm k x = .next x) ∧
    (i + n ≤ vm.cfg.memSize → ∃ bs, Vm.inspectBytes vm i n = .next bs ∧ bs.length = n ∧
      ∀ (j : Nat) (h : j < bs.length), bs[j] = s.byte (i + j)) ∧
    Vm.inspectRegisters vm g = ⟨s.top, s.base, s.ip⟩) ∧
  ∀ (vm : Vm) (t : State) (turns : Nat), vm.core = none → State.runFor turns vm.launchState = t →
    t.status ≠ .running →
    ∃ vm', Vm.run turns vm = .next (vm', some t.status) ∧ vm.Returns t.status t ∧ vm'.core = some t ∧
      vm'.cfg = vm.cfg ∧ ∀ (k i n : Nat) (x : Word) (g : Registers),
        (k < vm.cfg.stackCap → k < t.top → Vm.inspectSlot vm' k x = .next (t.slot k)) ∧
        (i + n ≤ vm.cfg.memSize → ∃ bs, Vm.inspectBytes vm' i n = .next bs ∧ bs.length = n ∧
          ∀ (j : Nat) (h : j < bs.length), bs[j] = t.byte (i + j)) ∧
        Vm.inspectRegisters vm' g = ⟨t.top, t.base, t.ip⟩
end

