-- ==== Sys2Proof/Laws/Arms.lean ====
section
/-! SUPPORT. Each arm of the dispatcher as its shared operation, true by `rfl`: a proof rewrites with these and then cites
the operation's lemma. -/

namespace Sys2Proof.Machine

variable (s : State)

theorem exec_push (imm : Operand) : exec (.push imm) s = pushValue (zextOperand imm) s := rfl
theorem exec_pop : exec .pop s = execPop s := rfl
theorem exec_add : exec .add s = replaceTopTwo (fun a b => a + b) s := rfl
theorem exec_sub : exec .sub s = replaceTopTwo (fun a b => a - b) s := rfl
theorem exec_mul : exec .mul s = replaceTopTwo (fun a b => a * b) s := rfl
theorem exec_div : exec .div s = divideTopTwo (fun a b => BitVec.ofNat 64 (a.toNat / b.toNat)) s := rfl
theorem exec_mod : exec .mod s = divideTopTwo (fun a b => BitVec.ofNat 64 (a.toNat % b.toNat)) s := rfl
theorem exec_and : exec .and s = replaceTopTwo (fun a b => a &&& b) s := rfl
theorem exec_or : exec .or s = replaceTopTwo (fun a b => a ||| b) s := rfl
theorem exec_xor : exec .xor s = replaceTopTwo (fun a b => a ^^^ b) s := rfl
theorem exec_not : exec .not s = replaceTop (fun a => ~~~a) s := rfl
theorem exec_inc : exec .inc s = replaceTop (fun a => a + 1) s := rfl
theorem exec_dec : exec .dec s = replaceTop (fun a => a - 1) s := rfl
theorem exec_shl : exec .shl s = replaceTopTwo (shiftLeft s.cfg.shiftMode) s := rfl
theorem exec_shr : exec .shr s = replaceTopTwo (shiftRight s.cfg.shiftMode) s := rfl
theorem exec_dup : exec .dup s = execDup s := rfl
theorem exec_swap : exec .swap s = execSwap s := rfl
theorem exec_eq : exec .eq s = replaceTopTwo (fun a b => boolWord (cmpEq a b)) s := rfl
theorem exec_lt : exec .lt s = replaceTopTwo (fun a b => boolWord (cmpLt a b)) s := rfl
theorem exec_gt : exec .gt s = replaceTopTwo (fun a b => boolWord (cmpGt a b)) s := rfl
theorem exec_lte : exec .lte s = replaceTopTwo (fun a b => boolWord (cmpLe a b)) s := rfl
theorem exec_gte : exec .gte s = replaceTopTwo (fun a b => boolWord (cmpGe a b)) s := rfl
theorem exec_load : exec .load s = loadValue 8 s := rfl
theorem exec_store : exec .store s = storeValue 8 s := rfl
theorem exec_load8 : exec .load8 s = loadValue 1 s := rfl
theorem exec_store8 : exec .store8 s = storeValue 1 s := rfl
theorem exec_jmp : exec .jmp s = popAndJump 1 true s := rfl
theorem exec_jz : exec .jz s = popAndJump 2 (isZero (s.operand 2)) s := rfl
theorem exec_jnz : exec .jnz s = popAndJump 2 (!isZero (s.operand 2)) s := rfl
theorem exec_jn : exec .jn s = popAndJump 2 (isNegative (s.operand 2)) s := rfl
theorem exec_jp : exec .jp s = popAndJump 2 (isPositive (s.operand 2)) s := rfl
theorem exec_je : exec .je s = popAndJump 3 (cmpEq (s.operand 3) (s.operand 2)) s := rfl
theorem exec_jne : exec .jne s = popAndJump 3 (!cmpEq (s.operand 3) (s.operand 2)) s := rfl
theorem exec_jlt : exec .jlt s = popAndJump 3 (cmpLt (s.operand 3) (s.operand 2)) s := rfl
theorem exec_jgt : exec .jgt s = popAndJump 3 (cmpGt (s.operand 3) (s.operand 2)) s := rfl
theorem exec_jle : exec .jle s = popAndJump 3 (cmpLe (s.operand 3) (s.operand 2)) s := rfl
theorem exec_jge : exec .jge s = popAndJump 3 (cmpGe (s.operand 3) (s.operand 2)) s := rfl
theorem exec_time : exec .time s = execTime s := rfl
theorem exec_space : exec .space s = pushValue (BitVec.ofNat 64 s.cfg.dataBase) s := rfl
theorem exec_call (target : Operand) : exec (.call target) s = execCall target s := rfl
theorem exec_ret : exec .ret s = execRet s := rfl
theorem exec_hlt : exec .hlt s = execHlt s := rfl
theorem exec_unassigned (opcode : Byte) : exec (.unassigned opcode) s = execUnassigned opcode s := rfl

end Sys2Proof.Machine
end

