-- ==== Sys2Proof/Laws/Codec.lean ====
section
/-! SUPPORT. Small lemmas of the codec and of the default configuration. -/

namespace Sys2Proof

theorem Mnemonic.mem_all (m : Mnemonic) : m ∈ Mnemonic.all := by
  cases m <;> decide

/-- The handler array answers only a mnemonic whose opcode byte was asked for (R95). -/
theorem byteOf_of_handler {o : OpcodeMap} {b : Byte} {m : Mnemonic} (h : handler o b = some m) : o.byteOf m = b := by
  simpa using List.find?_some h

/-- A byte with no handler is no mnemonic's (R77). -/
theorem handler_eq_none_iff (o : OpcodeMap) (b : Byte) : handler o b = none ↔ ∀ m, o.byteOf m ≠ b := by
  simp only [handler, List.find?_eq_none, beq_iff_eq]
  exact ⟨fun h m => h m m.mem_all, fun h m _ => h m⟩

/-- The default OPCODE_OF is injective (R76). -/
theorem OpcodeMap.standard_injective : OpcodeMap.standard.Injective := by
  intro m n h
  have key : (Mnemonic.all.all fun m => Mnemonic.all.all fun n =>
      m == n || OpcodeMap.standard.byteOf m != OpcodeMap.standard.byteOf n) = true := by decide
  have := List.all_eq_true.mp (List.all_eq_true.mp key m m.mem_all) n n.mem_all
  simpa [h] using this

/-- The default configuration meets the constraints of R6. -/
theorem Config.standard_wellFormed : Config.standard.WellFormed where
  romAligned := by decide
  codeAligned := by decide
  fits := by decide
  capPos := by decide
  capWord := by decide
  dataBaseWord := by decide
  opcodesInjective := OpcodeMap.standard_injective
  initWf := rfl
  initBelow := rfl

/-- A packed word bit by bit: the operand below bit 56, the opcode above (R70, R73). -/
theorem getLsbD_packFields (b : Byte) (v : Word) (j : Nat) :
    (packFields b v).getLsbD j = if j < 56 then v.getLsbD j else b.getLsbD (j - 56) := by
  have h : (packFields b v).getLsbD j = (b ++ v.setWidth 56 : BitVec (8 + 56)).getLsbD j := rfl
  rw [h, BitVec.getLsbD_append]
  by_cases hj : j < 56 <;> simp [hj]

/-- The opcode field of a packed word (R73). -/
theorem splitWord_packFields_opcode (b : Byte) (v : Word) : (splitWord (packFields b v)).opcode = b := by
  ext i hi
  simp only [splitWord, BitVec.getElem_extractLsb', getLsbD_packFields, show ¬ 56 + i < 56 by omega, ↓reduceIte,
    Nat.add_sub_cancel_left]
  exact BitVec.getLsbD_eq_getElem hi

end Sys2Proof
end

