-- ==== Sys2Proof/Laws/Memory.lean ====
section
/-! SUPPORT. The laws of canonical arrays and of the byte accesses: read after write, and every write keeps the form. -/

namespace Sys2Proof

variable {w : Nat}

@[simp] theorem Cells.unlisted_eq : Cells.unlisted w = 0#w := rfl

@[simp] theorem Cells.read_nil (k : Nat) : Cells.read ([] : Cells w) k = 0#w := rfl

theorem Cells.read_erase_same (m : Cells w) (k : Nat) : Cells.read (Cells.erase m k) k = 0#w := by
  induction m with
  | nil => rfl
  | cons c rest ih =>
    obtain ⟨i, x⟩ := c
    by_cases h : i = k <;> simp_all [Cells.erase, Cells.read]

theorem Cells.read_erase_ne (m : Cells w) {j k : Nat} (h : j ≠ k) :
    Cells.read (Cells.erase m k) j = Cells.read m j := by
  induction m with
  | nil => rfl
  | cons c rest ih =>
    obtain ⟨i, x⟩ := c
    by_cases hi : i = k <;> simp_all [Cells.erase, Cells.read, Ne.symm h]

theorem Cells.read_insert_ne (m : Cells w) {j k : Nat} (v : BitVec w) (h : j ≠ k) :
    Cells.read (Cells.insert m k v) j = Cells.read m j := by
  induction m with
  | nil => simp [Cells.insert, Cells.read, Ne.symm h]
  | cons c rest ih =>
    obtain ⟨i, x⟩ := c
    by_cases hi : k < i <;> simp [Cells.insert, Cells.read, hi, Ne.symm h, ih]

theorem Cells.read_insert_erase_same (m : Cells w) (k : Nat) (v : BitVec w) :
    Cells.read (Cells.insert (Cells.erase m k) k v) k = v := by
  induction m with
  | nil => simp [Cells.erase, Cells.insert, Cells.read]
  | cons c rest ih =>
    obtain ⟨i, x⟩ := c
    by_cases h : i = k
    · simpa [Cells.erase, h] using ih
    · by_cases hi : k < i <;> simp_all [Cells.erase, Cells.insert, Cells.read, Nat.not_lt.mpr]

/-- Reading the index just written gives the value written. -/
@[simp] theorem Cells.read_write_same (m : Cells w) (k : Nat) (v : BitVec w) :
    Cells.read (Cells.write m k v) k = v := by
  unfold Cells.write
  split
  · next h => rw [Cells.read_erase_same, h]
  · exact Cells.read_insert_erase_same m k v

/-- A write leaves every other index alone. -/
theorem Cells.read_write_ne (m : Cells w) {j k : Nat} (v : BitVec w) (h : j ≠ k) :
    Cells.read (Cells.write m k v) j = Cells.read m j := by
  unfold Cells.write
  split
  · exact Cells.read_erase_ne m h
  · rw [Cells.read_insert_ne _ v h, Cells.read_erase_ne m h]

/-- The two cases of a read after a write. -/
theorem Cells.read_write (m : Cells w) (j k : Nat) (v : BitVec w) :
    Cells.read (Cells.write m k v) j = if j = k then v else Cells.read m j := by
  split
  · next h => rw [h, Cells.read_write_same]
  · next h => exact Cells.read_write_ne m v h

theorem Cells.wfFrom_mono {lo lo' : Nat} {m : Cells w} (hm : Cells.wfFrom lo' m = true) (h : lo ≤ lo') :
    Cells.wfFrom lo m = true := by
  cases m with
  | nil => rfl
  | cons c rest =>
    simp only [Cells.wfFrom, Bool.and_eq_true, decide_eq_true_eq] at hm ⊢
    exact ⟨⟨by omega, hm.1.2⟩, hm.2⟩

theorem Cells.wfFrom_erase {lo : Nat} {m : Cells w} (k : Nat) (hm : Cells.wfFrom lo m = true) :
    Cells.wfFrom lo (Cells.erase m k) = true := by
  induction m generalizing lo with
  | nil => rfl
  | cons c rest ih =>
    obtain ⟨i, x⟩ := c
    simp only [Cells.wfFrom, Bool.and_eq_true, decide_eq_true_eq] at hm
    by_cases hi : i = k
    · simpa [Cells.erase, hi] using Cells.wfFrom_mono (ih hm.2) (by omega : lo ≤ i + 1)
    · simp only [Cells.erase, List.filter_cons, show (i != k) = true from by simpa using hi, ↓reduceIte, Cells.wfFrom,
        Bool.and_eq_true, decide_eq_true_eq]
      exact ⟨hm.1, ih hm.2⟩

theorem Cells.wfFrom_insert {lo k : Nat} {m : Cells w} {v : BitVec w} (hm : Cells.wfFrom lo m = true)
    (habs : ∀ c ∈ m, c.1 ≠ k) (hlo : lo ≤ k) (hv : v ≠ 0#w) : Cells.wfFrom lo (Cells.insert m k v) = true := by
  induction m generalizing lo with
  | nil => simp [Cells.insert, Cells.wfFrom, hlo, hv]
  | cons c rest ih =>
    obtain ⟨i, x⟩ := c
    have hik : i ≠ k := habs (i, x) (by simp)
    have habs' : ∀ c ∈ rest, c.1 ≠ k := fun c hc => habs c (by simp [hc])
    simp only [Cells.wfFrom, Bool.and_eq_true, decide_eq_true_eq, bne_iff_ne, ne_eq] at hm
    by_cases h : k < i
    · have hki : k + 1 ≤ i := h
      simp [Cells.insert, Cells.wfFrom, h, hlo, hv, hm.2, hki, show x ≠ 0#w from hm.1.2]
    · simp [Cells.insert, Cells.wfFrom, h, hm.1.1, show x ≠ 0#w from hm.1.2, ih hm.2 habs' (by omega)]

/-- A write keeps the canonical form. -/
theorem Cells.wf_write {m : Cells w} (k : Nat) (v : BitVec w) (hm : Cells.wf m = true) :
    Cells.wf (Cells.write m k v) = true := by
  unfold Cells.write
  split
  · exact Cells.wfFrom_erase k hm
  · next h =>
    refine Cells.wfFrom_insert (Cells.wfFrom_erase k hm) ?_ (Nat.zero_le k) h
    intro c hc
    simpa using (List.mem_filter.mp hc).2

theorem Cells.mem_insert {m : Cells w} {k : Nat} {v : BitVec w} {c : Nat × BitVec w} :
    c ∈ Cells.insert m k v ↔ c = (k, v) ∨ c ∈ m := by
  induction m with
  | nil => simp [Cells.insert]
  | cons d rest ih =>
    obtain ⟨i, x⟩ := d
    by_cases h : k < i
    · simp [Cells.insert, h]
    · simp only [Cells.insert, h, ↓reduceIte, List.mem_cons, ih]; tauto

theorem Cells.below_iff {n : Nat} {m : Cells w} : Cells.below n m = true ↔ ∀ c ∈ m, c.1 < n := by
  simp [Cells.below]

/-- A write below the bound keeps every listed index below it. -/
theorem Cells.below_write {n k : Nat} {m : Cells w} (v : BitVec w) (hm : Cells.below n m = true) (hk : k < n) :
    Cells.below n (Cells.write m k v) = true := by
  rw [Cells.below_iff] at *
  have he : ∀ c ∈ Cells.erase m k, c.1 < n := fun c hc => hm c (List.mem_filter.mp hc).1
  unfold Cells.write
  split
  · exact he
  · intro c hc
    rcases Cells.mem_insert.mp hc with rfl | hc
    · exact hk
    · exact he c hc

theorem Cells.read_of_lt {lo k : Nat} {m : Cells w} (hm : Cells.wfFrom lo m = true) (h : k < lo) :
    Cells.read m k = 0#w := by
  induction m generalizing lo with
  | nil => rfl
  | cons c rest ih =>
    obtain ⟨i, x⟩ := c
    simp only [Cells.wfFrom, Bool.and_eq_true, decide_eq_true_eq] at hm
    simp [Cells.read, show ¬ i = k by omega, ih hm.2 (by omega)]

/-- The canonical form is canonical: equal contents are equal data. -/
theorem Cells.ext_of_wf {lo : Nat} {m n : Cells w} (hm : Cells.wfFrom lo m = true) (hn : Cells.wfFrom lo n = true)
    (h : ∀ k, Cells.read m k = Cells.read n k) : m = n := by
  induction m generalizing lo n with
  | nil =>
    cases n with
    | nil => rfl
    | cons d rest =>
      obtain ⟨j, y⟩ := d
      have := h j
      simp_all [Cells.read, Cells.wfFrom]
  | cons c rest ih =>
    obtain ⟨i, x⟩ := c
    cases n with
    | nil =>
      have := h i
      simp_all [Cells.read, Cells.wfFrom]
    | cons d rest' =>
      obtain ⟨j, y⟩ := d
      simp only [Cells.wfFrom, Bool.and_eq_true, decide_eq_true_eq, bne_iff_ne, ne_eq] at hm hn
      have hi := h i
      have hj := h j
      have hij : i = j := by
        rcases Nat.lt_trichotomy i j with hlt | heq | hlt
        · have := Cells.read_of_lt hn.2 (show i < j + 1 by omega)
          exact absurd (by simpa [Cells.read, this, show ¬ j = i by omega] using hi) hm.1.2
        · exact heq
        · have := Cells.read_of_lt hm.2 (show j < i + 1 by omega)
          exact absurd (by simpa [Cells.read, this, show ¬ i = j by omega] using hj.symm) hn.1.2
      subst hij
      have hxy : x = y := by simpa [Cells.read] using hi
      subst hxy
      congr 1
      refine ih hm.2 hn.2 fun k => ?_
      by_cases hk : i = k
      · subst hk
        rw [Cells.read_of_lt hm.2 (by omega), Cells.read_of_lt hn.2 (by omega)]
      · simpa [Cells.read, hk] using h k

namespace Machine

@[simp] theorem toBytesLE_length (n v : Nat) : (toBytesLE n v).length = n := by
  induction n generalizing v with
  | zero => rfl
  | succ n ih => simp [toBytesLE, ih]

@[simp] theorem Memory.readBytes_length (m : Memory) (a n : Nat) : (m.readBytes a n).length = n := by
  induction n generalizing a with
  | zero => rfl
  | succ n ih => simp [Memory.readBytes, ih]

/-- Digits and number: the bytes of a number give back its residue. -/
theorem ofBytesLE_toBytesLE (n v : Nat) : ofBytesLE (toBytesLE n v) = v % 256 ^ n := by
  induction n generalizing v with
  | zero => simp [toBytesLE, ofBytesLE, Nat.mod_one]
  | succ n ih =>
    simp only [toBytesLE, ofBytesLE, ih, BitVec.toNat_ofNat]
    rw [show 256 ^ (n + 1) = 256 * 256 ^ n from Nat.pow_succ', Nat.mod_mul]

theorem ofBytesLE_lt (bs : List Byte) : ofBytesLE bs < 256 ^ bs.length := by
  induction bs with
  | nil => simp [ofBytesLE]
  | cons b bs ih =>
    have := b.isLt
    simp only [ofBytesLE, List.length_cons, Nat.pow_succ']
    omega

theorem toBytesLE_ofBytesLE (bs : List Byte) : toBytesLE bs.length (ofBytesLE bs) = bs := by
  induction bs with
  | nil => rfl
  | cons b bs ih =>
    have := b.isLt
    simp only [List.length_cons, toBytesLE, ofBytesLE]
    rw [show (b.toNat + 256 * ofBytesLE bs) / 256 = ofBytesLE bs by omega, ih]
    congr 1
    apply BitVec.eq_of_toNat_eq
    simp only [BitVec.toNat_ofNat]
    omega

/-- A write of bytes leaves every address outside them alone. -/
theorem Memory.read_writeBytes_ne (m : Memory) (a : Nat) (bs : List Byte) {j : Nat}
    (h : j < a ∨ a + bs.length ≤ j) : Cells.read (m.writeBytes a bs) j = Cells.read m j := by
  induction bs generalizing m a with
  | nil => rfl
  | cons b bs ih =>
    simp only [List.length_cons] at h
    simp only [Memory.writeBytes]
    rw [ih _ _ (by omega), Cells.read_write_ne _ _ (by omega)]

/-- The byte at offset `k` of the bytes written. -/
theorem Memory.read_writeBytes_at (m : Memory) (a : Nat) (bs : List Byte) (k : Nat) (hk : k < bs.length) :
    Cells.read (m.writeBytes a bs) (a + k) = bs[k] := by
  induction bs generalizing m a k with
  | nil => simp at hk
  | cons b bs ih =>
    simp only [Memory.writeBytes]
    cases k with
    | zero => rw [Memory.read_writeBytes_ne _ _ _ (by omega)]; simp
    | succ k =>
      rw [show a + (k + 1) = a + 1 + k by omega, ih _ _ _ (by simpa using hk)]
      simp

/-- Reading back the bytes just written. -/
theorem Memory.readBytes_writeBytes (m : Memory) (a : Nat) (bs : List Byte) :
    (m.writeBytes a bs).readBytes a bs.length = bs := by
  induction bs generalizing m a with
  | nil => rfl
  | cons b bs ih =>
    simp only [List.length_cons, Memory.readBytes, Memory.writeBytes]
    rw [ih, Memory.read_writeBytes_ne _ _ _ (by omega), Cells.read_write_same]

/-- The bytes read depend only on the addresses read. -/
theorem Memory.readBytes_congr {m m' : Memory} (a n : Nat)
    (h : ∀ j, a ≤ j → j < a + n → Cells.read m j = Cells.read m' j) : m.readBytes a n = m'.readBytes a n := by
  induction n generalizing a with
  | zero => rfl
  | succ n ih =>
    simp only [Memory.readBytes]
    rw [h a (by omega) (by omega), ih (a + 1) fun j h1 h2 => h j (by omega) (by omega)]

theorem Memory.wf_writeBytes {m : Memory} (a : Nat) (bs : List Byte) (hm : m.wf = true) :
    (m.writeBytes a bs).wf = true := by
  induction bs generalizing m a with
  | nil => exact hm
  | cons b bs ih => exact ih _ (Cells.wf_write a b hm)

theorem Memory.below_writeBytes {n a : Nat} {m : Memory} (bs : List Byte) (hm : Cells.below n m = true)
    (h : a + bs.length ≤ n) : Cells.below n (m.writeBytes a bs) = true := by
  induction bs generalizing m a with
  | nil => exact hm
  | cons b bs ih =>
    simp only [List.length_cons] at h
    exact ih (Cells.below_write b hm (by omega)) (by omega)

/-- MemWrite keeps the canonical form of memory. -/
theorem memWrite_wf {m : Memory} (addr n : Nat) (v : Word) (hm : m.wf = true) : (memWrite m addr n v).wf = true :=
  Memory.wf_writeBytes addr _ hm

theorem memWrite_below {m : Memory} {size addr n : Nat} (v : Word) (hm : Cells.below size m = true)
    (h : addr + n ≤ size) : Cells.below size (memWrite m addr n v) = true :=
  Memory.below_writeBytes _ hm (by simpa using h)

/-- MemWrite changes no byte outside the `n` it writes. -/
theorem read_memWrite_ne (m : Memory) (addr n : Nat) (v : Word) {j : Nat} (h : j < addr ∨ addr + n ≤ j) :
    Cells.read (memWrite m addr n v) j = Cells.read m j :=
  Memory.read_writeBytes_ne m addr _ (by simpa using h)

/-- The program loader keeps the canonical form of memory. -/
theorem storeProgramWord_wf {m : Memory} (addr : Nat) (x : Word) (hm : m.wf = true) :
    (storeProgramWord m addr x).wf = true :=
  Memory.wf_writeBytes addr _ hm

theorem loadImage_wf (ws : List Word) {first : Nat} {m : Memory} (hm : m.wf = true) :
    (loadImage first ws m).wf = true := by
  induction ws generalizing first m with
  | nil => exact hm
  | cons x ws ih => exact ih (storeProgramWord_wf _ x hm)

@[simp] theorem bytesBE_length (x : Word) : (bytesBE x).length = 8 := by simp [bytesBE]

/-- Big-endian bytes and word are inverse: fetch gives back what the loader wrote. -/
@[simp] theorem wordBE_bytesBE (x : Word) : wordBE (bytesBE x) = x := by
  apply BitVec.eq_of_toNat_eq
  have := x.isLt
  simp only [wordBE, bytesBE, List.reverse_reverse, ofBytesLE_toBytesLE, BitVec.toNat_ofNat]
  omega

/-- FetchRead after the loader's write of that word. -/
theorem fetchRead_storeProgramWord (m : Memory) (addr : Nat) (x : Word) :
    fetchRead (storeProgramWord m addr x) addr = x := by
  have h := Memory.readBytes_writeBytes m addr (bytesBE x)
  rw [bytesBE_length] at h
  rw [fetchRead, storeProgramWord, h, wordBE_bytesBE]

/-- The frame copy leaves every slot outside its destination alone. -/
theorem read_copySlots_ne (src dst n : Nat) (m : Slots) {j : Nat} (h : j < dst ∨ dst + n ≤ j) :
    Cells.read (copySlots src dst n m) j = Cells.read m j := by
  induction n generalizing src dst m with
  | zero => rfl
  | succ n ih =>
    simp only [copySlots]
    rw [ih _ _ _ (by omega), Cells.read_write_ne _ _ (by omega)]

/-- The frame copy, its source wholly below its destination, copies every slot. -/
theorem read_copySlots_at (src dst n : Nat) (m : Slots) (hsep : src + n ≤ dst) (k : Nat) (hk : k < n) :
    Cells.read (copySlots src dst n m) (dst + k) = Cells.read m (src + k) := by
  induction n generalizing src dst m k with
  | zero => omega
  | succ n ih =>
    simp only [copySlots]
    cases k with
    | zero =>
      rw [read_copySlots_ne _ _ _ _ (by omega)]
      exact Cells.read_write_same _ _ _
    | succ k =>
      rw [show dst + (k + 1) = dst + 1 + k by omega, ih _ _ _ (by omega) _ (by omega),
        Cells.read_write_ne _ _ (by omega), show src + 1 + k = src + (k + 1) by omega]

theorem copySlots_wf (src dst n : Nat) {m : Slots} (hm : Cells.wf m = true) :
    Cells.wf (copySlots src dst n m) = true := by
  induction n generalizing src dst m with
  | zero => exact hm
  | succ n ih => exact ih _ _ (Cells.wf_write _ _ hm)

theorem copySlots_below {cap src dst n : Nat} {m : Slots} (hm : Cells.below cap m = true) (h : dst + n ≤ cap) :
    Cells.below cap (copySlots src dst n m) = true := by
  induction n generalizing src dst m with
  | zero => exact hm
  | succ n ih => exact ih (Cells.below_write _ hm (by omega)) (by omega)

end Machine

end Sys2Proof
end

