-- ==== Sys2Proof/Laws/State.lean ====
section
/-! SUPPORT. One lemma per field per update of the state, true by `rfl`, and the same for the readings `slot` and
`byte`. -/

namespace Sys2Proof.Machine

@[simp] theorem State.setMem_mem (s : State) (m : Memory) : (s.setMem m).mem = m := rfl
@[simp] theorem State.setMem_S (s : State) (m : Memory) : (s.setMem m).S = s.S := rfl
@[simp] theorem State.setMem_top (s : State) (m : Memory) : (s.setMem m).top = s.top := rfl
@[simp] theorem State.setMem_base (s : State) (m : Memory) : (s.setMem m).base = s.base := rfl
@[simp] theorem State.setMem_ip (s : State) (m : Memory) : (s.setMem m).ip = s.ip := rfl
@[simp] theorem State.setMem_status (s : State) (m : Memory) : (s.setMem m).status = s.status := rfl
@[simp] theorem State.setMem_cfg (s : State) (m : Memory) : (s.setMem m).cfg = s.cfg := rfl
@[simp] theorem State.setMem_timeDraws (s : State) (m : Memory) : (s.setMem m).timeDraws = s.timeDraws := rfl
@[simp] theorem State.setMem_slot (s : State) (m : Memory) (k : Nat) : (s.setMem m).slot k = s.slot k := rfl
@[simp] theorem State.setMem_byte (s : State) (m : Memory) (a : Nat) : (s.setMem m).byte a = Cells.read m a := rfl

@[simp] theorem State.setSlots_mem (s : State) (m : Slots) : (s.setSlots m).mem = s.mem := rfl
@[simp] theorem State.setSlots_S (s : State) (m : Slots) : (s.setSlots m).S = m := rfl
@[simp] theorem State.setSlots_top (s : State) (m : Slots) : (s.setSlots m).top = s.top := rfl
@[simp] theorem State.setSlots_base (s : State) (m : Slots) : (s.setSlots m).base = s.base := rfl
@[simp] theorem State.setSlots_ip (s : State) (m : Slots) : (s.setSlots m).ip = s.ip := rfl
@[simp] theorem State.setSlots_status (s : State) (m : Slots) : (s.setSlots m).status = s.status := rfl
@[simp] theorem State.setSlots_cfg (s : State) (m : Slots) : (s.setSlots m).cfg = s.cfg := rfl
@[simp] theorem State.setSlots_timeDraws (s : State) (m : Slots) : (s.setSlots m).timeDraws = s.timeDraws := rfl
@[simp] theorem State.setSlots_slot (s : State) (m : Slots) (k : Nat) : (s.setSlots m).slot k = Cells.read m k := rfl
@[simp] theorem State.setSlots_byte (s : State) (m : Slots) (a : Nat) : (s.setSlots m).byte a = s.byte a := rfl

@[simp] theorem State.setTop_mem (s : State) (n : Nat) : (s.setTop n).mem = s.mem := rfl
@[simp] theorem State.setTop_S (s : State) (n : Nat) : (s.setTop n).S = s.S := rfl
@[simp] theorem State.setTop_top (s : State) (n : Nat) : (s.setTop n).top = n := rfl
@[simp] theorem State.setTop_base (s : State) (n : Nat) : (s.setTop n).base = s.base := rfl
@[simp] theorem State.setTop_ip (s : State) (n : Nat) : (s.setTop n).ip = s.ip := rfl
@[simp] theorem State.setTop_status (s : State) (n : Nat) : (s.setTop n).status = s.status := rfl
@[simp] theorem State.setTop_cfg (s : State) (n : Nat) : (s.setTop n).cfg = s.cfg := rfl
@[simp] theorem State.setTop_timeDraws (s : State) (n : Nat) : (s.setTop n).timeDraws = s.timeDraws := rfl
@[simp] theorem State.setTop_slot (s : State) (n : Nat) (k : Nat) : (s.setTop n).slot k = s.slot k := rfl
@[simp] theorem State.setTop_byte (s : State) (n : Nat) (a : Nat) : (s.setTop n).byte a = s.byte a := rfl

@[simp] theorem State.setBase_mem (s : State) (n : Nat) : (s.setBase n).mem = s.mem := rfl
@[simp] theorem State.setBase_S (s : State) (n : Nat) : (s.setBase n).S = s.S := rfl
@[simp] theorem State.setBase_top (s : State) (n : Nat) : (s.setBase n).top = s.top := rfl
@[simp] theorem State.setBase_base (s : State) (n : Nat) : (s.setBase n).base = n := rfl
@[simp] theorem State.setBase_ip (s : State) (n : Nat) : (s.setBase n).ip = s.ip := rfl
@[simp] theorem State.setBase_status (s : State) (n : Nat) : (s.setBase n).status = s.status := rfl
@[simp] theorem State.setBase_cfg (s : State) (n : Nat) : (s.setBase n).cfg = s.cfg := rfl
@[simp] theorem State.setBase_timeDraws (s : State) (n : Nat) : (s.setBase n).timeDraws = s.timeDraws := rfl
@[simp] theorem State.setBase_slot (s : State) (n : Nat) (k : Nat) : (s.setBase n).slot k = s.slot k := rfl
@[simp] theorem State.setBase_byte (s : State) (n : Nat) (a : Nat) : (s.setBase n).byte a = s.byte a := rfl

@[simp] theorem State.setIp_mem (s : State) (v : Word) : (s.setIp v).mem = s.mem := rfl
@[simp] theorem State.setIp_S (s : State) (v : Word) : (s.setIp v).S = s.S := rfl
@[simp] theorem State.setIp_top (s : State) (v : Word) : (s.setIp v).top = s.top := rfl
@[simp] theorem State.setIp_base (s : State) (v : Word) : (s.setIp v).base = s.base := rfl
@[simp] theorem State.setIp_ip (s : State) (v : Word) : (s.setIp v).ip = v := rfl
@[simp] theorem State.setIp_status (s : State) (v : Word) : (s.setIp v).status = s.status := rfl
@[simp] theorem State.setIp_cfg (s : State) (v : Word) : (s.setIp v).cfg = s.cfg := rfl
@[simp] theorem State.setIp_timeDraws (s : State) (v : Word) : (s.setIp v).timeDraws = s.timeDraws := rfl
@[simp] theorem State.setIp_slot (s : State) (v : Word) (k : Nat) : (s.setIp v).slot k = s.slot k := rfl
@[simp] theorem State.setIp_byte (s : State) (v : Word) (a : Nat) : (s.setIp v).byte a = s.byte a := rfl

@[simp] theorem State.setStatus_mem (s : State) (x : Status) : (s.setStatus x).mem = s.mem := rfl
@[simp] theorem State.setStatus_S (s : State) (x : Status) : (s.setStatus x).S = s.S := rfl
@[simp] theorem State.setStatus_top (s : State) (x : Status) : (s.setStatus x).top = s.top := rfl
@[simp] theorem State.setStatus_base (s : State) (x : Status) : (s.setStatus x).base = s.base := rfl
@[simp] theorem State.setStatus_ip (s : State) (x : Status) : (s.setStatus x).ip = s.ip := rfl
@[simp] theorem State.setStatus_status (s : State) (x : Status) : (s.setStatus x).status = x := rfl
@[simp] theorem State.setStatus_cfg (s : State) (x : Status) : (s.setStatus x).cfg = s.cfg := rfl
@[simp] theorem State.setStatus_timeDraws (s : State) (x : Status) : (s.setStatus x).timeDraws = s.timeDraws := rfl
@[simp] theorem State.setStatus_slot (s : State) (x : Status) (k : Nat) : (s.setStatus x).slot k = s.slot k := rfl
@[simp] theorem State.setStatus_byte (s : State) (x : Status) (a : Nat) : (s.setStatus x).byte a = s.byte a := rfl

@[simp] theorem State.setTimeDraws_mem (s : State) (n : Nat) : (s.setTimeDraws n).mem = s.mem := rfl
@[simp] theorem State.setTimeDraws_S (s : State) (n : Nat) : (s.setTimeDraws n).S = s.S := rfl
@[simp] theorem State.setTimeDraws_top (s : State) (n : Nat) : (s.setTimeDraws n).top = s.top := rfl
@[simp] theorem State.setTimeDraws_base (s : State) (n : Nat) : (s.setTimeDraws n).base = s.base := rfl
@[simp] theorem State.setTimeDraws_ip (s : State) (n : Nat) : (s.setTimeDraws n).ip = s.ip := rfl
@[simp] theorem State.setTimeDraws_status (s : State) (n : Nat) : (s.setTimeDraws n).status = s.status := rfl
@[simp] theorem State.setTimeDraws_cfg (s : State) (n : Nat) : (s.setTimeDraws n).cfg = s.cfg := rfl
@[simp] theorem State.setTimeDraws_timeDraws (s : State) (n : Nat) : (s.setTimeDraws n).timeDraws = n := rfl
@[simp] theorem State.setTimeDraws_slot (s : State) (n : Nat) (k : Nat) : (s.setTimeDraws n).slot k = s.slot k := rfl
@[simp] theorem State.setTimeDraws_byte (s : State) (n : Nat) (a : Nat) : (s.setTimeDraws n).byte a = s.byte a := rfl

@[simp] theorem State.setSlot_mem (s : State) (k : Nat) (v : Word) : (s.setSlot k v).mem = s.mem := rfl
@[simp] theorem State.setSlot_S (s : State) (k : Nat) (v : Word) : (s.setSlot k v).S = Cells.write s.S k v := rfl
@[simp] theorem State.setSlot_top (s : State) (k : Nat) (v : Word) : (s.setSlot k v).top = s.top := rfl
@[simp] theorem State.setSlot_base (s : State) (k : Nat) (v : Word) : (s.setSlot k v).base = s.base := rfl
@[simp] theorem State.setSlot_ip (s : State) (k : Nat) (v : Word) : (s.setSlot k v).ip = s.ip := rfl
@[simp] theorem State.setSlot_status (s : State) (k : Nat) (v : Word) : (s.setSlot k v).status = s.status := rfl
@[simp] theorem State.setSlot_cfg (s : State) (k : Nat) (v : Word) : (s.setSlot k v).cfg = s.cfg := rfl
@[simp] theorem State.setSlot_timeDraws (s : State) (k : Nat) (v : Word) : (s.setSlot k v).timeDraws = s.timeDraws := rfl
@[simp] theorem State.setSlot_byte (s : State) (k : Nat) (v : Word) (a : Nat) : (s.setSlot k v).byte a = s.byte a := rfl

@[simp] theorem State.advance_mem (s : State) : s.advance.mem = s.mem := rfl
@[simp] theorem State.advance_S (s : State) : s.advance.S = s.S := rfl
@[simp] theorem State.advance_top (s : State) : s.advance.top = s.top := rfl
@[simp] theorem State.advance_base (s : State) : s.advance.base = s.base := rfl
@[simp] theorem State.advance_ip (s : State) : s.advance.ip = s.ip + 1 := rfl
@[simp] theorem State.advance_status (s : State) : s.advance.status = s.status := rfl
@[simp] theorem State.advance_cfg (s : State) : s.advance.cfg = s.cfg := rfl
@[simp] theorem State.advance_timeDraws (s : State) : s.advance.timeDraws = s.timeDraws := rfl
@[simp] theorem State.advance_slot (s : State) (k : Nat) : s.advance.slot k = s.slot k := rfl
@[simp] theorem State.advance_byte (s : State) (a : Nat) : s.advance.byte a = s.byte a := rfl

@[simp] theorem State.raise_mem (s : State) (k : FaultKind) : (s.raise k).mem = s.mem := rfl
@[simp] theorem State.raise_S (s : State) (k : FaultKind) : (s.raise k).S = s.S := rfl
@[simp] theorem State.raise_top (s : State) (k : FaultKind) : (s.raise k).top = s.top := rfl
@[simp] theorem State.raise_base (s : State) (k : FaultKind) : (s.raise k).base = s.base := rfl
@[simp] theorem State.raise_ip (s : State) (k : FaultKind) : (s.raise k).ip = s.ip := rfl
@[simp] theorem State.raise_status (s : State) (k : FaultKind) : (s.raise k).status = .faulted k s.ip := rfl
@[simp] theorem State.raise_cfg (s : State) (k : FaultKind) : (s.raise k).cfg = s.cfg := rfl
@[simp] theorem State.raise_timeDraws (s : State) (k : FaultKind) : (s.raise k).timeDraws = s.timeDraws := rfl
@[simp] theorem State.raise_slot (s : State) (k : FaultKind) (j : Nat) : (s.raise k).slot j = s.slot j := rfl
@[simp] theorem State.raise_byte (s : State) (k : FaultKind) (a : Nat) : (s.raise k).byte a = s.byte a := rfl

/-- The fault state written out (R214). -/
theorem State.raise_eq (s : State) (k : FaultKind) : s.raise k = { s with status := .faulted k s.ip } := rfl

/-- The outcome of a fault written out (R214). -/
theorem fail_eq (s : State) (k : FaultKind) : fail k s = .next { s with status := .faulted k s.ip } := rfl

/-- A fault's outcome is the raised state and no other. -/
@[simp] theorem fail_next_iff (s t : State) (k : FaultKind) : fail k s = .next t ↔ s.raise k = t := by
  simp [fail]

/-- A fault's outcome, read backwards. -/
theorem eq_raise_of_fail {s t : State} {k : FaultKind} (h : fail k s = .next t) : t = s.raise k :=
  ((fail_next_iff s t k).mp h).symm

@[simp] theorem State.hasDepth_iff (s : State) (n : Nat) : s.hasDepth n = true ↔ s.base + n ≤ s.top := by
  simp [State.hasDepth]

@[simp] theorem State.hasRoom_iff (s : State) : s.hasRoom = true ↔ s.top < s.cfg.stackCap := by
  simp [State.hasRoom]

@[simp] theorem State.inMemory_iff (s : State) (a : Word) (n : Nat) :
    s.inMemory a n = true ↔ s.cfg.dataBase + a.toNat + n ≤ s.cfg.memSize := by
  simp [State.inMemory]

@[simp] theorem State.isRunning_iff (s : State) : s.isRunning = true ↔ s.status = .running := by
  simp [State.isRunning]

@[simp] theorem State.fetchable_iff (s : State) : s.fetchable = true ↔ 8 * s.ip.toNat + 8 ≤ s.cfg.dataBase := by
  simp [State.fetchable]

@[simp] theorem State.canReturn_iff (s : State) :
    s.canReturn = true ↔ 3 ≤ s.base ∧ s.frameCount ≤ s.base - 3 ∧ s.savedBase ≤ s.base - 3 - s.frameCount := by
  simp [State.canReturn, and_assoc]

/-- The `k`-th frame value from the top, as a slot. -/
theorem State.operand_eq (s : State) (k : Nat) : s.operand k = s.slot (s.top - k) := rfl

end Sys2Proof.Machine
end

