-- ==== Sys2Proof/Laws/Ops.lean ====
section
/-! SUPPORT. One lemma per shared operation that says once everything it can do. No shared operation faults or refuses in
the host's sense: each answers a next state, and the lemma lists which. -/

namespace Sys2Proof.Machine

variable {s t : State}

theorem pushValue_cases {v : Word} (h : pushValue v s = .next t) :
    (s.top < s.cfg.stackCap ∧ t = (s.advance.setSlot s.top v).setTop (s.top + 1)) ∨
      (s.cfg.stackCap ≤ s.top ∧ t = s.raise .stackOverflow) := by
  unfold pushValue at h
  split at h
  · next hr => exact .inl ⟨by simpa using hr, by simpa using h.symm⟩
  · next hr => exact .inr ⟨by simpa using hr, eq_raise_of_fail h⟩

theorem replaceTop_cases {f : Word → Word} (h : replaceTop f s = .next t) :
    (s.base + 1 ≤ s.top ∧ t = s.advance.setSlot (s.top - 1) (f (s.operand 1))) ∨
      (s.top < s.base + 1 ∧ t = s.raise .stackUnderflow) := by
  unfold replaceTop at h
  split at h
  · next hd => exact .inl ⟨by simpa using hd, by simpa using h.symm⟩
  · next hd => exact .inr ⟨by simpa using hd, eq_raise_of_fail h⟩

theorem replaceTopTwo_cases {f : Word → Word → Word} (h : replaceTopTwo f s = .next t) :
    (s.base + 2 ≤ s.top ∧
      t = (s.advance.setSlot (s.top - 2) (f (s.operand 2) (s.operand 1))).setTop (s.top - 1)) ∨
      (s.top < s.base + 2 ∧ t = s.raise .stackUnderflow) := by
  unfold replaceTopTwo at h
  split at h
  · next hd => exact .inl ⟨by simpa using hd, by simpa using h.symm⟩
  · next hd => exact .inr ⟨by simpa using hd, eq_raise_of_fail h⟩

theorem divideTopTwo_cases {f : Word → Word → Word} (h : divideTopTwo f s = .next t) :
    (s.base + 2 ≤ s.top ∧ s.operand 1 ≠ 0 ∧
      t = (s.advance.setSlot (s.top - 2) (f (s.operand 2) (s.operand 1))).setTop (s.top - 1)) ∨
      (s.base + 2 ≤ s.top ∧ s.operand 1 = 0 ∧ t = s.raise .arithmeticError) ∨
      (s.top < s.base + 2 ∧ t = s.raise .stackUnderflow) := by
  unfold divideTopTwo at h
  split at h
  · next hz =>
    rw [Bool.and_eq_true, State.hasDepth_iff, beq_iff_eq] at hz
    exact .inr (.inl ⟨hz.1, hz.2, eq_raise_of_fail h⟩)
  · next hz =>
    rw [Bool.and_eq_true, State.hasDepth_iff, beq_iff_eq] at hz
    rcases replaceTopTwo_cases h with ⟨hd, rfl⟩ | h'
    · exact .inl ⟨hd, fun h0 => hz ⟨hd, h0⟩, rfl⟩
    · exact .inr (.inr h')

theorem popAndJump_cases {n : Nat} {taken : Bool} (h : popAndJump n taken s = .next t) :
    (s.base + n ≤ s.top ∧ t = (if taken then s.setIp (s.operand 1) else s.advance).setTop (s.top - n)) ∨
      (s.top < s.base + n ∧ t = s.raise .stackUnderflow) := by
  unfold popAndJump at h
  split at h
  · next hd => exact .inl ⟨by simpa using hd, by simpa using h.symm⟩
  · next hd => exact .inr ⟨by simpa using hd, eq_raise_of_fail h⟩

theorem loadValue_cases {n : Nat} (h : loadValue n s = .next t) :
    (s.base + 1 ≤ s.top ∧ s.ea (s.operand 1) + n ≤ s.cfg.memSize ∧
      t = s.advance.setSlot (s.top - 1) (memRead s.mem (s.ea (s.operand 1)) n)) ∨
      (s.base + 1 ≤ s.top ∧ s.cfg.memSize < s.ea (s.operand 1) + n ∧
        t = s.raise (.memoryOutOfRange (s.operand 1))) ∨
      (s.top < s.base + 1 ∧ t = s.raise .stackUnderflow) := by
  unfold loadValue at h
  split at h
  · next hd =>
    split at h
    · next hm => exact .inl ⟨by simpa using hd, of_decide_eq_true hm, by simpa using h.symm⟩
    · next hm =>
      exact .inr (.inl ⟨by simpa using hd, Nat.lt_of_not_le fun hc => hm (decide_eq_true hc), eq_raise_of_fail h⟩)
  · next hd => exact .inr (.inr ⟨by simpa using hd, eq_raise_of_fail h⟩)

theorem storeValue_cases {n : Nat} (h : storeValue n s = .next t) :
    (s.base + 2 ≤ s.top ∧ s.ea (s.operand 1) + n ≤ s.cfg.memSize ∧
      t = (s.advance.setMem (memWrite s.mem (s.ea (s.operand 1)) n (s.operand 2))).setTop (s.top - 2)) ∨
      (s.base + 2 ≤ s.top ∧ s.cfg.memSize < s.ea (s.operand 1) + n ∧
        t = s.raise (.memoryOutOfRange (s.operand 1))) ∨
      (s.top < s.base + 2 ∧ t = s.raise .stackUnderflow) := by
  unfold storeValue at h
  split at h
  · next hd =>
    split at h
    · next hm => exact .inl ⟨by simpa using hd, of_decide_eq_true hm, by simpa using h.symm⟩
    · next hm =>
      exact .inr (.inl ⟨by simpa using hd, Nat.lt_of_not_le fun hc => hm (decide_eq_true hc), eq_raise_of_fail h⟩)
  · next hd => exact .inr (.inr ⟨by simpa using hd, eq_raise_of_fail h⟩)

theorem execPop_cases (h : execPop s = .next t) :
    (s.base + 1 ≤ s.top ∧ t = s.advance.setTop (s.top - 1)) ∨
      (s.top < s.base + 1 ∧ t = s.raise .stackUnderflow) := by
  unfold execPop at h
  split at h
  · next hd => exact .inl ⟨by simpa using hd, by simpa using h.symm⟩
  · next hd => exact .inr ⟨by simpa using hd, eq_raise_of_fail h⟩

theorem execDup_cases (h : execDup s = .next t) :
    (s.base + 1 ≤ s.top ∧ s.top < s.cfg.stackCap ∧
      t = (s.advance.setSlot s.top (s.operand 1)).setTop (s.top + 1)) ∨
      (s.base + 1 ≤ s.top ∧ s.cfg.stackCap ≤ s.top ∧ t = s.raise .stackOverflow) ∨
      (s.top < s.base + 1 ∧ t = s.raise .stackUnderflow) := by
  unfold execDup at h
  split at h
  · next hd =>
    have hd' : s.base + 1 ≤ s.top := by simpa using hd
    rcases pushValue_cases h with h' | h'
    · exact .inl ⟨hd', h'⟩
    · exact .inr (.inl ⟨hd', h'⟩)
  · next hd => exact .inr (.inr ⟨by simpa using hd, eq_raise_of_fail h⟩)

theorem execSwap_cases (h : execSwap s = .next t) :
    (s.base + 2 ≤ s.top ∧
      t = (s.advance.setSlot (s.top - 2) (s.operand 1)).setSlot (s.top - 1) (s.operand 2)) ∨
      (s.top < s.base + 2 ∧ t = s.raise .stackUnderflow) := by
  unfold execSwap at h
  split at h
  · next hd => exact .inl ⟨by simpa using hd, by simpa using h.symm⟩
  · next hd => exact .inr ⟨by simpa using hd, eq_raise_of_fail h⟩

theorem execTime_cases (h : execTime s = .next t) :
    (s.top < s.cfg.stackCap ∧
      t = (((s.setTimeDraws (s.timeDraws + 1)).advance).setSlot s.top s.timeDraw).setTop (s.top + 1)) ∨
      (s.cfg.stackCap ≤ s.top ∧ t = s.raise .stackOverflow) := by
  unfold execTime at h
  split at h
  · next hr =>
    have hr' : s.top < s.cfg.stackCap := by simpa using hr
    rcases pushValue_cases h with ⟨_, h'⟩ | ⟨h', _⟩
    · exact .inl ⟨hr', h'⟩
    · exact absurd h' (Nat.not_le.mpr hr')
  · next hr => exact .inr ⟨by simpa using hr, eq_raise_of_fail h⟩

theorem execCall_cases {target : Operand} (h : execCall target s = .next t) :
    (s.base + (s.callCount + 1) ≤ s.top ∧ s.top + 2 + s.callCount ≤ s.cfg.stackCap ∧
      t = ((((s.setSlots (callSlots s s.callCount)).setBase (s.top + 2)).setTop (s.top + 2 + s.callCount)).setIp
        (zextOperand target))) ∨
      (s.base + (s.callCount + 1) ≤ s.top ∧ s.cfg.stackCap < s.top + 2 + s.callCount ∧ t = s.raise .stackOverflow) ∨
      (s.top < s.base + (s.callCount + 1) ∧ t = s.raise .invalidCall) := by
  unfold execCall at h
  split at h
  · next hd =>
    rw [Bool.and_eq_true, State.hasDepth_iff, State.hasDepth_iff] at hd
    split at h
    · next hc => exact .inl ⟨hd.2, hc, by simpa using h.symm⟩
    · next hc => exact .inr (.inl ⟨hd.2, by omega, eq_raise_of_fail h⟩)
  · next hd =>
    rw [Bool.and_eq_true, State.hasDepth_iff, State.hasDepth_iff] at hd
    exact .inr (.inr ⟨by omega, eq_raise_of_fail h⟩)

theorem execRet_cases (h : execRet s = .next t) :
    (s.canReturn = true ∧ s.base < s.top ∧
      t = (((s.setSlot s.unwoundTop (s.operand 1)).setTop (s.unwoundTop + 1)).setBase s.savedBase).setIp s.returnIp) ∨
      (s.canReturn = true ∧ s.top ≤ s.base ∧
        t = ((s.setTop s.unwoundTop).setBase s.savedBase).setIp s.returnIp) ∨
      (s.canReturn = false ∧ t = s.raise .invalidReturn) := by
  unfold execRet at h
  split at h
  · next hr =>
    split at h
    · next hv => exact .inl ⟨hr, hv, by simpa using h.symm⟩
    · next hv => exact .inr (.inl ⟨hr, by omega, by simpa using h.symm⟩)
  · next hr => exact .inr (.inr ⟨Bool.eq_false_iff.mpr hr, eq_raise_of_fail h⟩)

theorem execUnassigned_cases {opcode : Byte} (h : execUnassigned opcode s = .next t) :
    (s.cfg.unknownPolicy = .halt ∧ t = s.advance.setStatus (.halted .unknownOpcode)) ∨
      (s.cfg.unknownPolicy = .fault ∧ t = s.raise (.unknownOpcode opcode)) := by
  unfold execUnassigned at h
  split at h
  · next hp => exact .inl ⟨hp, by simpa using h.symm⟩
  · next hp => exact .inr ⟨hp, eq_raise_of_fail h⟩

/-- Everything a step can do. -/
theorem step_cases (h : step s = .next t) :
    s.status = .running ∧
      ((8 * s.ip.toNat + 8 ≤ s.cfg.dataBase ∧ exec (decodeWord s.cfg.opcodes s.fetchedWord) s = .next t) ∨
        (s.cfg.dataBase < 8 * s.ip.toNat + 8 ∧ t = s.raise .fetchOutOfRange)) := by
  unfold step at h
  split at h
  · next hr =>
    refine ⟨by simpa using hr, ?_⟩
    unfold State.fetch at h
    by_cases hf : s.fetchable = true
    · rw [if_pos hf] at h
      exact .inl ⟨by simpa using hf, h⟩
    · rw [if_neg hf] at h
      exact .inr ⟨by simpa using hf, eq_raise_of_fail h⟩
  · cases h

end Sys2Proof.Machine
end

