-- ==== Sys2Proof/Laws/Completes.lean ====
section
/-! SUPPORT. What each shared operation completes with, in the vocabulary of Safety.lean: cited with the instruction's lemma of
Arms.lean, instead of unfolding its meaning. -/

namespace Sys2Proof.Machine

variable {i : Instr} {s : State}

/-- An arm that fails faults precisely (R214). -/
theorem faultsWith_of_fail {k : FaultKind} (he : exec i s = fail k s) : FaultsWith i k s := he

theorem replacesBy_of_pushValue {v : Word} (he : exec i s = pushValue v s) (hr : s.top < s.cfg.stackCap) :
    ReplacesBy i 0 v s := by
  refine ⟨_, he.trans (if_pos (s.hasRoom_iff.mpr hr)), rfl, ?_, ?_, rfl, rfl, rfl, rfl, rfl, fun _ => rfl⟩
  · exact Cells.read_write_same _ _ _
  · exact fun k hk => Cells.read_write_ne _ _ hk

theorem faultsWith_of_pushValue {v : Word} (he : exec i s = pushValue v s) (hr : s.cfg.stackCap ≤ s.top) :
    FaultsWith i .stackOverflow s :=
  he.trans (if_neg fun h => Nat.not_le.mpr (s.hasRoom_iff.mp h) hr)

theorem replacesBy_of_replaceTop {f : Word → Word} (he : exec i s = replaceTop f s) (hd : s.base + 1 ≤ s.top) :
    ReplacesBy i 1 (f (s.slot (s.top - 1))) s := by
  refine ⟨_, he.trans (if_pos ((s.hasDepth_iff 1).mpr hd)), rfl, ?_, ?_, rfl, rfl, rfl, rfl, rfl, fun _ => rfl⟩
  · exact Cells.read_write_same _ _ _
  · exact fun k hk => Cells.read_write_ne _ _ hk

theorem faultsWith_of_replaceTop {f : Word → Word} (he : exec i s = replaceTop f s) (hd : s.top < s.base + 1) :
    FaultsWith i .stackUnderflow s :=
  he.trans (if_neg fun h => Nat.not_le.mpr hd ((s.hasDepth_iff 1).mp h))

theorem replacesBy_of_replaceTopTwo {f : Word → Word → Word} (he : exec i s = replaceTopTwo f s)
    (hd : s.base + 2 ≤ s.top) : ReplacesBy i 2 (f (s.slot (s.top - 2)) (s.slot (s.top - 1))) s := by
  refine ⟨_, he.trans (if_pos ((s.hasDepth_iff 2).mpr hd)), ?_, ?_, ?_, rfl, rfl, rfl, rfl, rfl, fun _ => rfl⟩
  · simp only [State.setTop_top]; omega
  · exact Cells.read_write_same _ _ _
  · exact fun k hk => Cells.read_write_ne _ _ hk

theorem faultsWith_of_replaceTopTwo {f : Word → Word → Word} (he : exec i s = replaceTopTwo f s)
    (hd : s.top < s.base + 2) : FaultsWith i .stackUnderflow s :=
  he.trans (if_neg fun h => Nat.not_le.mpr hd ((s.hasDepth_iff 2).mp h))

theorem popsTo_of_popAndJump {n : Nat} {taken : Bool} (he : exec i s = popAndJump n taken s)
    (hd : s.base + n ≤ s.top) : PopsTo i n (if taken then s.slot (s.top - 1) else s.ip + 1) s := by
  refine ⟨_, he.trans (if_pos ((s.hasDepth_iff n).mpr hd)), ?_, ?_, ?_, ?_, ?_, ?_, ?_, ?_⟩
  · simp only [State.setTop_top]; omega
  all_goals cases taken <;> first | rfl | exact fun _ => rfl

theorem faultsWith_of_popAndJump {n : Nat} {taken : Bool} (he : exec i s = popAndJump n taken s)
    (hd : s.top < s.base + n) : FaultsWith i .stackUnderflow s :=
  he.trans (if_neg fun h => Nat.not_le.mpr hd ((s.hasDepth_iff n).mp h))

theorem replacesBy_of_loadValue {n : Nat} (he : exec i s = loadValue n s) (hd : s.base + 1 ≤ s.top)
    (hm : s.cfg.dataBase + (s.slot (s.top - 1)).toNat + n ≤ s.cfg.memSize) :
    ReplacesBy i 1 (memRead s.mem (s.cfg.dataBase + (s.slot (s.top - 1)).toNat) n) s := by
  refine ⟨_, he.trans ((if_pos ((s.hasDepth_iff 1).mpr hd)).trans (if_pos ((s.inMemory_iff _ n).mpr hm))), rfl, ?_, ?_,
    rfl, rfl, rfl, rfl, rfl, fun _ => rfl⟩
  · exact Cells.read_write_same _ _ _
  · exact fun k hk => Cells.read_write_ne _ _ hk

theorem replacesBy_of_divideTopTwo {f : Word → Word → Word} (he : exec i s = divideTopTwo f s)
    (hd : s.base + 2 ≤ s.top) (h0 : s.slot (s.top - 1) ≠ 0) :
    ReplacesBy i 2 (f (s.slot (s.top - 2)) (s.slot (s.top - 1))) s :=
  replacesBy_of_replaceTopTwo (he.trans (if_neg fun h => h0 (beq_iff_eq.mp (Bool.and_eq_true_iff.mp h).2))) hd

theorem faultsWith_of_divideTopTwo {f : Word → Word → Word} (he : exec i s = divideTopTwo f s)
    (hd : s.top < s.base + 2) : FaultsWith i .stackUnderflow s :=
  faultsWith_of_replaceTopTwo
    (he.trans (if_neg fun h => Nat.not_le.mpr hd ((s.hasDepth_iff 2).mp (Bool.and_eq_true_iff.mp h).1))) hd

theorem faultsWith_of_loadValue {n : Nat} (he : exec i s = loadValue n s) (hd : s.top < s.base + 1) :
    FaultsWith i .stackUnderflow s :=
  he.trans (if_neg fun h => Nat.not_le.mpr hd ((s.hasDepth_iff 1).mp h))

theorem outOfRange_of_loadValue {n : Nat} (he : exec i s = loadValue n s) (hd : s.base + 1 ≤ s.top)
    (hm : s.cfg.memSize < s.cfg.dataBase + (s.slot (s.top - 1)).toNat + n) :
    FaultsWith i (.memoryOutOfRange (s.slot (s.top - 1))) s :=
  he.trans ((if_pos ((s.hasDepth_iff 1).mpr hd)).trans
    (if_neg fun h => Nat.not_le.mpr hm ((s.inMemory_iff _ n).mp h)))

/-- What a store completes with. -/
theorem exec_of_storeValue {n : Nat} (he : exec i s = storeValue n s) (hd : s.base + 2 ≤ s.top)
    (hm : s.cfg.dataBase + (s.slot (s.top - 1)).toNat + n ≤ s.cfg.memSize) :
    exec i s = .next ((s.advance.setMem (memWrite s.mem (s.cfg.dataBase + (s.slot (s.top - 1)).toNat) n
      (s.slot (s.top - 2)))).setTop (s.top - 2)) :=
  he.trans ((if_pos ((s.hasDepth_iff 2).mpr hd)).trans (if_pos ((s.inMemory_iff _ n).mpr hm)))

theorem faultsWith_of_storeValue {n : Nat} (he : exec i s = storeValue n s) (hd : s.top < s.base + 2) :
    FaultsWith i .stackUnderflow s :=
  he.trans (if_neg fun h => Nat.not_le.mpr hd ((s.hasDepth_iff 2).mp h))

theorem outOfRange_of_storeValue {n : Nat} (he : exec i s = storeValue n s) (hd : s.base + 2 ≤ s.top)
    (hm : s.cfg.memSize < s.cfg.dataBase + (s.slot (s.top - 1)).toNat + n) :
    FaultsWith i (.memoryOutOfRange (s.slot (s.top - 1))) s :=
  he.trans ((if_pos ((s.hasDepth_iff 2).mpr hd)).trans
    (if_neg fun h => Nat.not_le.mpr hm ((s.inMemory_iff _ n).mp h)))

end Sys2Proof.Machine
end

