-- ==== Sys2Proof/Laws/Exec.lean ====
section
/-! SUPPORT. Everything that executing an instruction can do, in one case analysis, and the frame chain's two lemmas. -/

namespace Sys2Proof.Machine

/-- A property of the next state of `exec` holds if it holds of each form that state can take. -/
theorem exec_cases {i : Instr} {s t : State} {P : State → Prop} (h : exec i s = .next t)
    (fault : ∀ k, P (s.raise k))
    (push : ∀ v, s.top < s.cfg.stackCap → P ((s.advance.setSlot s.top v).setTop (s.top + 1)))
    (replaceOne : ∀ v, s.base + 1 ≤ s.top → P (s.advance.setSlot (s.top - 1) v))
    (replaceTwo : ∀ v, s.base + 2 ≤ s.top → P ((s.advance.setSlot (s.top - 2) v).setTop (s.top - 1)))
    (popOne : s.base + 1 ≤ s.top → P (s.advance.setTop (s.top - 1)))
    (swapTwo : s.base + 2 ≤ s.top →
      P ((s.advance.setSlot (s.top - 2) (s.operand 1)).setSlot (s.top - 1) (s.operand 2)))
    (jump : ∀ (n : Nat) (v : Word), s.base + n ≤ s.top → (∃ m, i.mnemonic = some m ∧ m ∈ ipWriters) →
      P ((s.setIp v).setTop (s.top - n)))
    (store : ∀ n, s.base + 2 ≤ s.top → s.ea (s.operand 1) + n ≤ s.cfg.memSize →
      P ((s.advance.setMem (memWrite s.mem (s.ea (s.operand 1)) n (s.operand 2))).setTop (s.top - 2)))
    (time : s.top < s.cfg.stackCap →
      P ((((s.setTimeDraws (s.timeDraws + 1)).advance).setSlot s.top s.timeDraw).setTop (s.top + 1)))
    (call : ∀ target, i = .call target → s.base + (s.callCount + 1) ≤ s.top →
      s.top + 2 + s.callCount ≤ s.cfg.stackCap →
      P ((((s.setSlots (callSlots s s.callCount)).setBase (s.top + 2)).setTop (s.top + 2 + s.callCount)).setIp
        (zextOperand target)))
    (returnValue : i = .ret → s.canReturn = true → s.base < s.top →
      P ((((s.setSlot s.unwoundTop (s.operand 1)).setTop (s.unwoundTop + 1)).setBase s.savedBase).setIp s.returnIp))
    (returnNothing : i = .ret → s.canReturn = true → s.top ≤ s.base →
      P (((s.setTop s.unwoundTop).setBase s.savedBase).setIp s.returnIp))
    (halt : i = .hlt → P (s.advance.setStatus (.halted .hlt)))
    (unknown : ∀ b, i = .unassigned b → s.cfg.unknownPolicy = .halt →
      P (s.advance.setStatus (.halted .unknownOpcode))) : P t := by
  cases i
  case push imm =>
    rcases pushValue_cases h with ⟨h1, rfl⟩ | ⟨h1, rfl⟩
    · exact push _ h1
    · exact fault _
  case space =>
    rcases pushValue_cases h with ⟨h1, rfl⟩ | ⟨h1, rfl⟩
    · exact push _ h1
    · exact fault _
  case pop =>
    rcases execPop_cases h with ⟨h1, rfl⟩ | ⟨h1, rfl⟩
    · exact popOne h1
    · exact fault _
  case dup =>
    rcases execDup_cases h with ⟨h1, h2, rfl⟩ | ⟨h1, h2, rfl⟩ | ⟨h1, rfl⟩
    · exact push _ h2
    · exact fault _
    · exact fault _
  case swap =>
    rcases execSwap_cases h with ⟨h1, rfl⟩ | ⟨h1, rfl⟩
    · exact swapTwo h1
    · exact fault _
  case time =>
    rcases execTime_cases h with ⟨h1, rfl⟩ | ⟨h1, rfl⟩
    · exact time h1
    · exact fault _
  case call target =>
    rcases execCall_cases h with ⟨h1, h2, rfl⟩ | ⟨h1, h2, rfl⟩ | ⟨h1, rfl⟩
    · exact call _ rfl h1 h2
    · exact fault _
    · exact fault _
  case ret =>
    rcases execRet_cases h with ⟨h1, h2, rfl⟩ | ⟨h1, h2, rfl⟩ | ⟨h1, rfl⟩
    · exact returnValue rfl h1 h2
    · exact returnNothing rfl h1 h2
    · exact fault _
  case hlt =>
    cases h; exact halt rfl
  case unassigned b =>
    rcases execUnassigned_cases h with ⟨h1, rfl⟩ | ⟨h1, rfl⟩
    · exact unknown b rfl h1
    · exact fault _
  case inc | dec | not =>
    simp only [exec_inc, exec_dec, exec_not] at h
    rcases replaceTop_cases h with ⟨h1, rfl⟩ | ⟨h1, rfl⟩
    · exact replaceOne _ h1
    · exact fault _
  case div | mod =>
    simp only [exec_div, exec_mod] at h
    rcases divideTopTwo_cases h with ⟨h1, _, rfl⟩ | ⟨h1, _, rfl⟩ | ⟨h1, rfl⟩
    · exact replaceTwo _ h1
    · exact fault _
    · exact fault _
  case load | load8 =>
    rcases loadValue_cases h with ⟨h1, _, rfl⟩ | ⟨h1, _, rfl⟩ | ⟨h1, rfl⟩
    · exact replaceOne _ h1
    · exact fault _
    · exact fault _
  case store | store8 =>
    rcases storeValue_cases h with ⟨h1, hh, rfl⟩ | ⟨h1, _, rfl⟩ | ⟨h1, rfl⟩
    · exact store _ h1 hh
    · exact fault _
    · exact fault _
  case jmp | jz | jnz | jn | jp | je | jne | jlt | jgt | jle | jge =>
    rcases popAndJump_cases h with ⟨h1, rfl⟩ | ⟨h1, rfl⟩
    · split
      · exact jump _ _ h1 ⟨_, rfl, by decide⟩
      · exact jump _ (s.ip + 1) h1 ⟨_, rfl, by decide⟩
    · exact fault _
  all_goals
    simp only [exec_add, exec_sub, exec_mul, exec_and, exec_or, exec_xor, exec_shl, exec_shr, exec_eq, exec_lt, exec_gt, exec_lte, exec_gte] at h
    rcases replaceTopTwo_cases h with ⟨h1, rfl⟩ | ⟨h1, rfl⟩
    · exact replaceTwo _ h1
    · exact fault _

/-- A frame other than the outermost one is well linked (R35 b, c). -/
theorem FrameChain_of_ne_zero {m : Slots} {b : Nat} (h : FrameChain m b) (hb : b ≠ 0) :
    3 ≤ b ∧ (Cells.read m (b - 3)).toNat ≤ b - 3 ∧
      (Cells.read m (b - 1)).toNat ≤ b - 3 - (Cells.read m (b - 3)).toNat ∧
      FrameChain m (Cells.read m (b - 1)).toNat := by
  cases h with
  | outermost => exact absurd rfl hb
  | frame _ room count link caller => exact ⟨room, count, link, caller⟩

/-- The chain depends only on the slots below `base`. -/
theorem FrameChain_congr {m m' : Slots} {b : Nat} (h : FrameChain m b)
    (he : ∀ k, k < b → Cells.read m' k = Cells.read m k) : FrameChain m' b := by
  induction h with
  | outermost => exact .outermost
  | frame b room count link caller ih =>
    have h1 := he (b - 1) (by omega)
    have h3 := he (b - 3) (by omega)
    refine .frame b room (by rw [h3]; exact count) (by rw [h1, h3]; exact link) ?_
    rw [h1]
    exact ih fun k hk => he k (by omega)

end Sys2Proof.Machine
end

