-- ==== Sys2Proof/Laws/PerInstr.lean ====
section
/-! SUPPORT. Statements about every instruction as syntax, one lemma per constructor. -/

namespace Sys2Proof.Laws

/-- The opcode field of an instruction's word is the byte OPCODE_OF gives it (30_encoding.md R73, R76). -/
def OpcodeField.Statement (i : Instr) : Prop := ∀ o : OpcodeMap, (splitWord (encode o i)).opcode = i.opcodeByte o

theorem OpcodeField.push (imm : Operand) : OpcodeField.Statement (.push imm) := fun _ => splitWord_packFields_opcode _ _
theorem OpcodeField.pop : OpcodeField.Statement .pop := fun _ => splitWord_packFields_opcode _ _
theorem OpcodeField.add : OpcodeField.Statement .add := fun _ => splitWord_packFields_opcode _ _
theorem OpcodeField.sub : OpcodeField.Statement .sub := fun _ => splitWord_packFields_opcode _ _
theorem OpcodeField.mul : OpcodeField.Statement .mul := fun _ => splitWord_packFields_opcode _ _
theorem OpcodeField.div : OpcodeField.Statement .div := fun _ => splitWord_packFields_opcode _ _
theorem OpcodeField.mod : OpcodeField.Statement .mod := fun _ => splitWord_packFields_opcode _ _
theorem OpcodeField.and : OpcodeField.Statement .and := fun _ => splitWord_packFields_opcode _ _
theorem OpcodeField.or : OpcodeField.Statement .or := fun _ => splitWord_packFields_opcode _ _
theorem OpcodeField.xor : OpcodeField.Statement .xor := fun _ => splitWord_packFields_opcode _ _
theorem OpcodeField.not : OpcodeField.Statement .not := fun _ => splitWord_packFields_opcode _ _
theorem OpcodeField.inc : OpcodeField.Statement .inc := fun _ => splitWord_packFields_opcode _ _
theorem OpcodeField.dec : OpcodeField.Statement .dec := fun _ => splitWord_packFields_opcode _ _
theorem OpcodeField.shl : OpcodeField.Statement .shl := fun _ => splitWord_packFields_opcode _ _
theorem OpcodeField.shr : OpcodeField.Statement .shr := fun _ => splitWord_packFields_opcode _ _
theorem OpcodeField.dup : OpcodeField.Statement .dup := fun _ => splitWord_packFields_opcode _ _
theorem OpcodeField.swap : OpcodeField.Statement .swap := fun _ => splitWord_packFields_opcode _ _
theorem OpcodeField.eq : OpcodeField.Statement .eq := fun _ => splitWord_packFields_opcode _ _
theorem OpcodeField.lt : OpcodeField.Statement .lt := fun _ => splitWord_packFields_opcode _ _
theorem OpcodeField.gt : OpcodeField.Statement .gt := fun _ => splitWord_packFields_opcode _ _
theorem OpcodeField.lte : OpcodeField.Statement .lte := fun _ => splitWord_packFields_opcode _ _
theorem OpcodeField.gte : OpcodeField.Statement .gte := fun _ => splitWord_packFields_opcode _ _
theorem OpcodeField.load : OpcodeField.Statement .load := fun _ => splitWord_packFields_opcode _ _
theorem OpcodeField.store : OpcodeField.Statement .store := fun _ => splitWord_packFields_opcode _ _
theorem OpcodeField.load8 : OpcodeField.Statement .load8 := fun _ => splitWord_packFields_opcode _ _
theorem OpcodeField.store8 : OpcodeField.Statement .store8 := fun _ => splitWord_packFields_opcode _ _
theorem OpcodeField.jmp : OpcodeField.Statement .jmp := fun _ => splitWord_packFields_opcode _ _
theorem OpcodeField.jz : OpcodeField.Statement .jz := fun _ => splitWord_packFields_opcode _ _
theorem OpcodeField.jnz : OpcodeField.Statement .jnz := fun _ => splitWord_packFields_opcode _ _
theorem OpcodeField.jn : OpcodeField.Statement .jn := fun _ => splitWord_packFields_opcode _ _
theorem OpcodeField.jp : OpcodeField.Statement .jp := fun _ => splitWord_packFields_opcode _ _
theorem OpcodeField.je : OpcodeField.Statement .je := fun _ => splitWord_packFields_opcode _ _
theorem OpcodeField.jne : OpcodeField.Statement .jne := fun _ => splitWord_packFields_opcode _ _
theorem OpcodeField.jlt : OpcodeField.Statement .jlt := fun _ => splitWord_packFields_opcode _ _
theorem OpcodeField.jgt : OpcodeField.Statement .jgt := fun _ => splitWord_packFields_opcode _ _
theorem OpcodeField.jle : OpcodeField.Statement .jle := fun _ => splitWord_packFields_opcode _ _
theorem OpcodeField.jge : OpcodeField.Statement .jge := fun _ => splitWord_packFields_opcode _ _
theorem OpcodeField.time : OpcodeField.Statement .time := fun _ => splitWord_packFields_opcode _ _
theorem OpcodeField.space : OpcodeField.Statement .space := fun _ => splitWord_packFields_opcode _ _
theorem OpcodeField.call (target : Operand) : OpcodeField.Statement (.call target) := fun _ => splitWord_packFields_opcode _ _
theorem OpcodeField.ret : OpcodeField.Statement .ret := fun _ => splitWord_packFields_opcode _ _
theorem OpcodeField.hlt : OpcodeField.Statement .hlt := fun _ => splitWord_packFields_opcode _ _
theorem OpcodeField.unassigned (opcode : Byte) : OpcodeField.Statement (.unassigned opcode) := fun _ => splitWord_packFields_opcode _ _

end Sys2Proof.Laws
end

