-- ==== Sys2Proof/Laws/Vm.lean ====
section
/-! SUPPORT. What the host's calls can do, said once: a proof cites these and unfolds no call. -/

namespace Sys2Proof.Machine

variable {vm vm' : Vm}

theorem start_of_fresh (h : vm.core = none) : vm.start = .next { vm with core := some vm.launchState } := by
  simp only [Vm.start, h]

theorem start_cases (h : vm.start = .next vm') : vm.core = none ∧ vm' = { vm with core := some vm.launchState } := by
  unfold Vm.start at h
  split at h
  · cases h
  · next hc => exact ⟨hc, by simpa using h.symm⟩

/-- The call on a fresh VM: the state the turns end in stays in the VM, and is what is reported of. -/
theorem run_of_fresh (k : Nat) (h : vm.core = none) :
    vm.run k = .next ({ vm with core := some (State.runFor k vm.launchState) },
      (State.runFor k vm.launchState).stopOutcome) := by
  simp only [Vm.run, start_of_fresh h, Vm.advance, Vm.report, Option.map_some, Option.bind_some]

/-- Everything the call can answer beside a refusal. -/
theorem run_cases {k : Nat} {o : Option Status} (h : vm.run k = .next (vm', o)) :
    vm.core = none ∧ vm' = { vm with core := some (State.runFor k vm.launchState) } ∧
      o = (State.runFor k vm.launchState).stopOutcome := by
  cases hc : vm.core with
  | none => rw [run_of_fresh k hc] at h; cases h; exact ⟨rfl, rfl, rfl⟩
  | some s => simp only [Vm.run, Vm.start, hc] at h; cases h

/-- A return in terms of the loop. -/
theorem returns_iff {o : Status} {t : State} :
    vm.Returns o t ↔ vm.core = none ∧ ∃ k, State.runFor k vm.launchState = t ∧ t.stopOutcome = some o := by
  refine ⟨fun ⟨k, h⟩ => ?_, fun ⟨hc, k, ht, ho⟩ => ⟨k, by rw [run_of_fresh k hc, ht, ho]⟩⟩
  obtain ⟨hc, hv, ho⟩ := run_cases h
  have ht : t = State.runFor k vm.launchState := Option.some.inj (congrArg Vm.core hv)
  exact ⟨hc, k, ht.symm, ht ▸ ho.symm⟩

/-- A core reports its status exactly when it is not Running (R220). -/
theorem stopOutcome_eq_some_iff {t : State} {o : Status} : t.stopOutcome = some o ↔ t.status = o ∧ o ≠ .running := by
  unfold State.stopOutcome
  cases h : t.status <;> constructor <;> simp +contextual [eq_comm]

end Sys2Proof.Machine
end

