-- ==== Sys2Proof/Tests/Slice0.lean ====
section
/-! SUPPORT. Our own tests. The expected results are written out from the spec: encodings from 30_encoding.md R70 and R76,
results from the vectors of 95_test_vectors.md (named in each docstring). The witnesses meet the hypotheses of the
statements in Certificates/Slice0/Obligations.lean, clause by clause at the edge of each range. -/

namespace Sys2Proof.Tests

open Sys2Proof.Machine

/-! ## Small states -/

/-- Slots written from index `k` upward. -/
def slotsFrom : Nat → List Word → Slots → Slots
  | _, [], m => m
  | k, v :: vs, m => slotsFrom (k + 1) vs (Cells.write m k v)

/-- A Running core at word index `ip` with these slots below `top`, the default configuration and no program. -/
def at_ (ip : Word) (base : Nat) (xs : List Word) : State :=
  { State.runStart Config.standard [] with S := slotsFrom 0 xs [], top := xs.length, base := base, ip := ip }

/-- The outermost frame at `ip = 0`. -/
def outer (xs : List Word) : State := at_ 0 0 xs

/-- Inside the frame of R186's example (base 5, two arguments, return address 4), with these values in it. -/
def inner (xs : List Word) : State := at_ 8 5 ([4, 5, 2, 4, 0] ++ xs)

/-- The same state with stack capacity `n`. -/
def cap (n : Nat) (s : State) : State := { s with cfg := { s.cfg with stackCap := n } }

/-- The same state with bytes stored from `a` upward. -/
def withBytes (a : Nat) (bs : List Byte) (s : State) : State := s.setMem (s.mem.writeBytes a bs)

/-- The slots below `top`, and `ip`, after an outcome that is a next state in which the core still runs. -/
def stackOf : Outcome → Option (List Word × Word)
  | .next t => if t.status = .running then some ((List.range t.top).map t.slot, t.ip) else none
  | .fault _ => none
  | .refused _ => none

/-- The status and `ip` after a next state. -/
def statusOf : Outcome → Option (Status × Word)
  | .next t => some (t.status, t.ip)
  | .fault _ => none
  | .refused _ => none

/-- Bytes of memory after a next state. -/
def bytesOf (a n : Nat) : Outcome → Option (List Byte)
  | .next t => some (t.mem.readBytes a n)
  | .fault _ => none
  | .refused _ => none

/-- The state of an outcome that is a next state. -/
def stateOf (s : State) : Outcome → State
  | .next t => t
  | .fault _ => s
  | .refused _ => s

/-! ## Well-formedness: each check refuses an ill-formed term -/

/-- 0x01 is PUSH's byte, 0x2A is HLT's. -/
theorem test_wf_refuses_assigned_bytes :
    Instr.wf OpcodeMap.standard (.unassigned 0x01) = false ∧ Instr.wf OpcodeMap.standard (.unassigned 0x2A) = false := by
  decide

/-- 0x00 and 0x2B have no handler (R77). -/
theorem test_wf_accepts_unassigned_bytes :
    Instr.wf OpcodeMap.standard (.unassigned 0x00) = true ∧ Instr.wf OpcodeMap.standard (.unassigned 0x2B) = true := by
  decide

theorem test_wf_refuses_unsorted_cells : Cells.wf [((2 : Nat), (1 : Byte)), (1, 1)] = false := by decide

theorem test_wf_refuses_repeated_cells : Cells.wf [((1 : Nat), (1 : Byte)), (1, 2)] = false := by decide

theorem test_wf_refuses_listed_default : Cells.wf [((1 : Nat), (0 : Byte))] = false := by decide

theorem test_below_refuses_the_bound : Cells.below 8 [((8 : Nat), (1 : Byte))] = false := by decide

theorem test_injective_refuses_a_shared_byte : ¬ OpcodeMap.Injective (Vector.replicate 42 0) :=
  fun h => by simpa using h .push .pop rfl

theorem test_config_refuses_rom_size : ¬ Config.WellFormed { Config.standard with romSize := 4 } :=
  fun h => absurd h.romAligned (by decide)

theorem test_config_refuses_code_size : ¬ Config.WellFormed { Config.standard with codeSize := 4 } :=
  fun h => absurd h.codeAligned (by decide)

theorem test_config_refuses_small_memory : ¬ Config.WellFormed { Config.standard with memSize := 3071 } :=
  fun h => absurd h.fits (by decide)

theorem test_config_refuses_empty_stack : ¬ Config.WellFormed { Config.standard with stackCap := 0 } :=
  fun h => absurd h.capPos (by decide)

theorem test_config_refuses_capacity_beyond_a_word : ¬ Config.WellFormed { Config.standard with stackCap := 2 ^ 64 } :=
  fun h => absurd h.capWord (by decide)

theorem test_config_refuses_data_base_beyond_a_word : ¬ Config.WellFormed { Config.standard with codeSize := 2 ^ 64 } :=
  fun h => absurd h.dataBaseWord (by decide)

theorem test_config_refuses_shared_opcodes :
    ¬ Config.WellFormed { Config.standard with opcodes := Vector.replicate 42 0 } :=
  fun h => test_injective_refuses_a_shared_byte h.opcodesInjective

theorem test_config_refuses_initial_memory :
    ¬ Config.WellFormed { Config.standard with initMem := [(0, 0)] } ∧
      ¬ Config.WellFormed { Config.standard with initMem := [(4096, 1)] } :=
  ⟨fun h => absurd h.initWf (by decide), fun h => absurd h.initBelow (by decide)⟩

/-- Memory is the host's list of cells. -/
theorem test_memory_is_host_cells : Memory = List Host.Cell := rfl

/-! ## Decoding: words written out from R70 and the default table of R76 -/

theorem test_decode_stack :
    decodeWord OpcodeMap.standard 0x0100000000000005 = .push 5 ∧
    decodeWord OpcodeMap.standard 0x0200000000000000 = .pop ∧
    decodeWord OpcodeMap.standard 0x1000000000000000 = .dup ∧
    decodeWord OpcodeMap.standard 0x1100000000000000 = .swap := by decide

theorem test_decode_arith :
    decodeWord OpcodeMap.standard 0x0300000000000000 = .add ∧
    decodeWord OpcodeMap.standard 0x0400000000000000 = .sub ∧
    decodeWord OpcodeMap.standard 0x0500000000000000 = .mul ∧
    decodeWord OpcodeMap.standard 0x0600000000000000 = .div ∧
    decodeWord OpcodeMap.standard 0x0700000000000000 = .mod ∧
    decodeWord OpcodeMap.standard 0x0C00000000000000 = .inc ∧
    decodeWord OpcodeMap.standard 0x0D00000000000000 = .dec := by decide

theorem test_decode_bitwise :
    decodeWord OpcodeMap.standard 0x0800000000000000 = .and ∧
    decodeWord OpcodeMap.standard 0x0900000000000000 = .or ∧
    decodeWord OpcodeMap.standard 0x0A00000000000000 = .xor ∧
    decodeWord OpcodeMap.standard 0x0B00000000000000 = .not ∧
    decodeWord OpcodeMap.standard 0x0E00000000000000 = .shl ∧
    decodeWord OpcodeMap.standard 0x0F00000000000000 = .shr := by decide

theorem test_decode_compare :
    decodeWord OpcodeMap.standard 0x1200000000000000 = .eq ∧
    decodeWord OpcodeMap.standard 0x1300000000000000 = .lt ∧
    decodeWord OpcodeMap.standard 0x1400000000000000 = .gt ∧
    decodeWord OpcodeMap.standard 0x1500000000000000 = .lte ∧
    decodeWord OpcodeMap.standard 0x1600000000000000 = .gte := by decide

theorem test_decode_loadstore :
    decodeWord OpcodeMap.standard 0x1700000000000000 = .load ∧
    decodeWord OpcodeMap.standard 0x1800000000000000 = .store ∧
    decodeWord OpcodeMap.standard 0x1900000000000000 = .load8 ∧
    decodeWord OpcodeMap.standard 0x1A00000000000000 = .store8 := by decide

theorem test_decode_branch :
    decodeWord OpcodeMap.standard 0x1B00000000000000 = .jmp ∧
    decodeWord OpcodeMap.standard 0x1C00000000000000 = .jz ∧
    decodeWord OpcodeMap.standard 0x1D00000000000000 = .jnz ∧
    decodeWord OpcodeMap.standard 0x1E00000000000000 = .jn ∧
    decodeWord OpcodeMap.standard 0x1F00000000000000 = .jp ∧
    decodeWord OpcodeMap.standard 0x2000000000000000 = .je ∧
    decodeWord OpcodeMap.standard 0x2100000000000000 = .jne ∧
    decodeWord OpcodeMap.standard 0x2200000000000000 = .jlt ∧
    decodeWord OpcodeMap.standard 0x2300000000000000 = .jgt ∧
    decodeWord OpcodeMap.standard 0x2400000000000000 = .jle ∧
    decodeWord OpcodeMap.standard 0x2500000000000000 = .jge := by decide

theorem test_decode_env :
    decodeWord OpcodeMap.standard 0x2600000000000000 = .time ∧
    decodeWord OpcodeMap.standard 0x2700000000000000 = .space := by decide

theorem test_decode_call :
    decodeWord OpcodeMap.standard 0x2800000000000006 = .call 6 ∧
    decodeWord OpcodeMap.standard 0x2900000000000000 = .ret := by decide

theorem test_decode_halt :
    decodeWord OpcodeMap.standard 0x2A00000000000000 = .hlt := by decide

/-- ENC-3, UNK-3, UNK-4: bytes with no handler. -/
theorem test_decode_unassigned :
    decodeWord OpcodeMap.standard 0x0000000000000000 = .unassigned 0x00 ∧
    decodeWord OpcodeMap.standard 0x2B00000000000000 = .unassigned 0x2B ∧
    decodeWord OpcodeMap.standard 0xFFFFFFFFFFFFFFFF = .unassigned 0xFF := by decide

/-- W1's note: the operand bits of ADD are ignored (R74). -/
theorem test_decode_ignores_operand_bits : decodeWord OpcodeMap.standard 0x03000000000000FF = .add := by decide

/-- ENC-5, ENC-6: `encode` keeps the low 56 bits of the operand (R73). -/
theorem test_pack_keeps_56_bits :
    packFields 0x01 0x100000000000000 = 0x0100000000000000 ∧
      packFields 0x01 0xFFFFFFFFFFFFFFFF = 0x01FFFFFFFFFFFFFF := by decide

/-- PUSH 5 as memory holds it: the opcode byte first (R54). -/
theorem test_decode_bytes :
    decodeBytes OpcodeMap.standard [0x01, 0, 0, 0, 0, 0, 0, 5, 0xAA] = .ok (.push 5, [0xAA]) ∧
      decodeBytes OpcodeMap.standard [0x01, 0, 0, 0, 0, 0, 0] = .error .truncated := ⟨rfl, rfl⟩

/-- The host's view of one row. -/
theorem test_decode_table_word : decodeTableWord 64 0x2900000000000000 = some .ret := by decide

/-- R79: a label, a comment, a hexadecimal operand, an empty line. -/
theorem test_assemble :
    (assemble OpcodeMap.standard "top: PUSH 0x1F ; comment\n\n ADD\nCALL top".toList).toOption =
      some [0x010000000000001F, 0x0300000000000000, 0x2800000000000000] := by decide

/-- R79: an operand only on PUSH and CALL, and only below `2^56`. -/
theorem test_assemble_refuses_operands :
    assemble OpcodeMap.standard "ADD 1".toList = .error .unexpectedOperand ∧
      assemble OpcodeMap.standard "PUSH 72057594037927936".toList = .error .operandTooLarge := by
  exact ⟨rfl, rfl⟩

/-! ## Results: the vectors of 95_test_vectors.md -/

/-- PUSH-2, PUSH-4. -/
theorem test_push :
    stackOf (exec (.push 0x00FFFFFFFFFFFFFF) (outer [])) = some ([0x00FFFFFFFFFFFFFF], 1) ∧
      statusOf (exec (.push 9) (cap 8 (outer [1, 1, 1, 1, 1, 1, 1, 1]))) = some (.faulted .stackOverflow 0, 0) := by decide

/-- POP-1, POP-3. -/
theorem test_pop :
    stackOf (exec .pop (outer [5, 21])) = some ([5], 1) ∧
      statusOf (exec .pop (at_ 6 5 [4, 5, 2, 4, 0])) = some (.faulted .stackUnderflow 6, 6) := by decide

/-- DUP-1, DUP-4. -/
theorem test_dup :
    stackOf (exec .dup (outer [7])) = some ([7, 7], 1) ∧
      statusOf (exec .dup (cap 8 (at_ 0 8 [0, 0, 0, 0, 0, 0, 0, 0]))) = some (.faulted .stackUnderflow 0, 0) := by decide

/-- SWAP-1, SWAP-2. -/
theorem test_swap :
    stackOf (exec .swap (outer [1, 2])) = some ([2, 1], 1) ∧
      statusOf (exec .swap (outer [1])) = some (.faulted .stackUnderflow 0, 0) := by decide

/-- ADD-1, ADD-2. -/
theorem test_add :
    stackOf (exec .add (outer [5, 13, 7])) = some ([5, 20], 1) ∧
      stackOf (exec .add (outer [0xFFFFFFFFFFFFFFFF, 1])) = some ([0], 1) := by decide

/-- SUB-1, SUB-2. -/
theorem test_sub :
    stackOf (exec .sub (outer [10, 3])) = some ([7], 1) ∧
      stackOf (exec .sub (outer [3, 10])) = some ([0xFFFFFFFFFFFFFFF9], 1) := by decide

/-- MUL-1, MUL-3. -/
theorem test_mul :
    stackOf (exec .mul (outer [6, 7])) = some ([42], 1) ∧
      stackOf (exec .mul (outer [0xFFFFFFFFFFFFFFFF, 0xFFFFFFFFFFFFFFFF])) = some ([1], 1) := by decide

/-- DIV-2, DIV-3. -/
theorem test_div :
    stackOf (exec .div (outer [0xFFFFFFFFFFFFFFFF, 2])) = some ([0x7FFFFFFFFFFFFFFF], 1) ∧
      statusOf (exec .div (at_ 2 0 [7, 0])) = some (.faulted .arithmeticError 2, 2) := by decide

/-- MOD-1, MOD-3. -/
theorem test_mod :
    stackOf (exec .mod (outer [17, 5])) = some ([2], 1) ∧
      statusOf (exec .mod (outer [7, 0])) = some (.faulted .arithmeticError 0, 0) := by decide

/-- INC-1, INC-2. -/
theorem test_inc :
    stackOf (exec .inc (outer [41])) = some ([42], 1) ∧
      stackOf (exec .inc (outer [0xFFFFFFFFFFFFFFFF])) = some ([0], 1) := by decide

/-- DEC-1, DEC-2. -/
theorem test_dec :
    stackOf (exec .dec (outer [1])) = some ([0], 1) ∧
      stackOf (exec .dec (outer [0])) = some ([0xFFFFFFFFFFFFFFFF], 1) := by decide

/-- AND-1, AND-2. -/
theorem test_and :
    stackOf (exec .and (outer [12, 10])) = some ([8], 1) ∧
      stackOf (exec .and (outer [0xFFFFFFFFFFFFFFFF, 240])) = some ([240], 1) := by decide

/-- OR-1, OR-2. -/
theorem test_or :
    stackOf (exec .or (outer [12, 10])) = some ([14], 1) ∧
      stackOf (exec .or (outer [0x8000000000000000, 1])) = some ([0x8000000000000001], 1) := by decide

/-- XOR-1, XOR-2. -/
theorem test_xor :
    stackOf (exec .xor (outer [12, 10])) = some ([6], 1) ∧
      stackOf (exec .xor (outer [0xFFFFFFFFFFFFFFFF, 0xFFFFFFFFFFFFFFFF])) = some ([0], 1) := by decide

/-- NOT-1, NOT-2. -/
theorem test_not :
    stackOf (exec .not (outer [0])) = some ([0xFFFFFFFFFFFFFFFF], 1) ∧
      stackOf (exec .not (outer [0x00FF00FF00FF00FF])) = some ([0xFF00FF00FF00FF00], 1) := by decide

/-- The same state under `SHIFT_MODE = masked6`. -/
def masked (s : State) : State := { s with cfg := { s.cfg with shiftMode := .masked6 } }

/-- The same state under `UNKNOWN_OPCODE_POLICY = fault`. -/
def faulting (s : State) : State := { s with cfg := { s.cfg with unknownPolicy := .fault } }

/-- SHL-3, SHL-4, SHL-8. -/
theorem test_shl :
    stackOf (exec .shl (outer [3, 63])) = some ([0x8000000000000000], 1) ∧
      stackOf (exec .shl (outer [1, 64])) = some ([0], 1) ∧
      stackOf (exec .shl (masked (outer [1, 0xFFFFFFFFFFFFFFFF]))) = some ([0x8000000000000000], 1) := by decide

/-- SHR-2, SHR-4, SHR-5. -/
theorem test_shr :
    stackOf (exec .shr (outer [0x8000000000000000, 63])) = some ([1], 1) ∧
      stackOf (exec .shr (outer [0xFFFFFFFFFFFFFFFF, 64])) = some ([0], 1) ∧
      stackOf (exec .shr (masked (outer [0xFFFFFFFFFFFFFFFF, 64]))) = some ([0xFFFFFFFFFFFFFFFF], 1) := by decide

/-- EQ-1, EQ-2. -/
theorem test_eq :
    stackOf (exec .eq (outer [4, 4])) = some ([1], 1) ∧
      stackOf (exec .eq (outer [4, 5])) = some ([0], 1) := by decide

/-- LT-1, LT-2. -/
theorem test_lt :
    stackOf (exec .lt (outer [3, 5])) = some ([1], 1) ∧
      stackOf (exec .lt (outer [0xFFFFFFFFFFFFFFFF, 1])) = some ([0], 1) := by decide

/-- GT-1, GT-2. -/
theorem test_gt :
    stackOf (exec .gt (outer [3, 5])) = some ([0], 1) ∧
      stackOf (exec .gt (outer [0xFFFFFFFFFFFFFFFF, 1])) = some ([1], 1) := by decide

/-- LTE-1, LTE-2. -/
theorem test_lte :
    stackOf (exec .lte (outer [5, 5])) = some ([1], 1) ∧
      stackOf (exec .lte (outer [6, 5])) = some ([0], 1) := by decide

/-- GTE-1, GTE-2. -/
theorem test_gte :
    stackOf (exec .gte (outer [5, 3])) = some ([1], 1) ∧
      stackOf (exec .gte (outer [0, 0xFFFFFFFFFFFFFFFF])) = some ([0], 1) := by decide

/-- LOAD-2, LOAD-4. -/
theorem test_load :
    stackOf (exec .load (withBytes 2048 [1, 2, 3, 4, 5, 6, 7, 8] (outer [0]))) =
        some ([0x0807060504030201], 1) ∧
      statusOf (exec .load (outer [2041])) = some (.faulted (.memoryOutOfRange 2041) 0, 0) := by decide

/-- STORE-1, STORE-4. -/
theorem test_store :
    bytesOf 2049 8 (exec .store (outer [0x1122334455667788, 1])) =
        some [0x88, 0x77, 0x66, 0x55, 0x44, 0x33, 0x22, 0x11] ∧
      statusOf (exec .store (outer [5, 0xFFFFFFFFFFFFF800])) = some (.faulted (.memoryOutOfRange 0xFFFFFFFFFFFFF800) 0, 0) := by decide

/-- LOAD8-2, LOAD8-3. -/
theorem test_load8 :
    stackOf (exec .load8 (withBytes 4095 [90] (outer [2047]))) = some ([90], 1) ∧
      statusOf (exec .load8 (outer [2048])) = some (.faulted (.memoryOutOfRange 2048) 0, 0) := by decide

/-- STORE8-1, STORE8-2: one byte changes. -/
theorem test_store8 :
    bytesOf 2047 3 (exec .store8 (outer [4660, 0])) = some [0, 0x34, 0] ∧
      bytesOf 4095 1 (exec .store8 (outer [0xFFFFFFFFFFFFFFFF, 2047])) = some [0xFF] := by decide

/-- JMP-1, JMP-2. -/
theorem test_jmp :
    stackOf (exec .jmp (at_ 2 0 [0, 1])) = some ([0], 1) ∧
      stackOf (exec .jmp (outer [256])) = some ([], 256) := by decide

/-- JZ-1, JZ-2. -/
theorem test_jz :
    stackOf (exec .jz (outer [0, 9])) = some ([], 9) ∧
      stackOf (exec .jz (at_ 4 0 [1, 9])) = some ([], 5) := by decide

/-- JNZ-1, JNZ-2. -/
theorem test_jnz :
    stackOf (exec .jnz (at_ 4 0 [0, 9])) = some ([], 5) ∧
      stackOf (exec .jnz (outer [0xFFFFFFFFFFFFFFFF, 9])) = some ([], 9) := by decide

/-- JN-3, JN-4. -/
theorem test_jn :
    stackOf (exec .jn (at_ 4 0 [0x8000000000000000, 9])) = some ([], 5) ∧
      stackOf (exec .jn (outer [0x8000000000000001, 9])) = some ([], 9) := by decide

/-- JP-3, JP-4. -/
theorem test_jp :
    stackOf (exec .jp (at_ 4 0 [0x8000000000000000, 9])) = some ([], 5) ∧
      stackOf (exec .jp (outer [0x7FFFFFFFFFFFFFFF, 9])) = some ([], 9) := by decide

/-- JE-1, JE-2. -/
theorem test_je :
    stackOf (exec .je (outer [4, 4, 9])) = some ([], 9) ∧
      stackOf (exec .je (at_ 6 0 [4, 5, 9])) = some ([], 7) := by decide

/-- JNE-1, JNE-2. -/
theorem test_jne :
    stackOf (exec .jne (at_ 6 0 [4, 4, 9])) = some ([], 7) ∧
      stackOf (exec .jne (outer [4, 5, 9])) = some ([], 9) := by decide

/-- JLT-1, JLT-2. -/
theorem test_jlt :
    stackOf (exec .jlt (outer [3, 5, 9])) = some ([], 9) ∧
      stackOf (exec .jlt (at_ 6 0 [0xFFFFFFFFFFFFFFFF, 5, 9])) = some ([], 7) := by decide

/-- JGT-1, JGT-2. -/
theorem test_jgt :
    stackOf (exec .jgt (at_ 6 0 [3, 5, 9])) = some ([], 7) ∧
      stackOf (exec .jgt (outer [0xFFFFFFFFFFFFFFFF, 5, 9])) = some ([], 9) := by decide

/-- JLE-1, JLE-2. -/
theorem test_jle :
    stackOf (exec .jle (outer [5, 5, 9])) = some ([], 9) ∧
      stackOf (exec .jle (at_ 6 0 [6, 5, 9])) = some ([], 7) := by decide

/-- JGE-1, JGE-2. -/
theorem test_jge :
    stackOf (exec .jge (outer [5, 3, 9])) = some ([], 9) ∧
      stackOf (exec .jge (at_ 6 0 [3, 5, 9])) = some ([], 7) := by decide

/-- TIME-3: what TIME pushes is free, so only the fault has a value to test. -/
theorem test_time_overflow :
    statusOf (exec .time (cap 8 (outer [1, 1, 1, 1, 1, 1, 1, 1]))) = some (.faulted .stackOverflow 0, 0) := by decide

/-- SPACE-1, SPACE-2. -/
theorem test_space :
    stackOf (exec .space (outer [])) = some ([2048], 1) ∧
      statusOf (exec .space (cap 8 (outer [1, 1, 1, 1, 1, 1, 1, 1]))) = some (.faulted .stackOverflow 0, 0) := by decide

/-- CALL-1, CALL-6. -/
theorem test_call :
    stackOf (exec (.call 6) (at_ 3 0 [4, 5, 2])) = some ([4, 5, 2, 4, 0, 4, 5], 6) ∧
      statusOf (exec (.call 20) (cap 8 (at_ 3 0 [1, 2, 3, 4, 5, 6, 0xFFFFFFFFFFFFFFFF]))) = some (.faulted .invalidCall 3, 3) := by decide

/-- RET-3, RET-6. -/
theorem test_ret :
    stackOf (exec .ret (inner [4, 5])) = some ([5], 4) ∧
      statusOf (exec .ret (at_ 2 3 [0, 0, 4])) = some (.faulted .invalidReturn 2, 2) := by decide

/-- HLT-1. -/
theorem test_hlt :
    statusOf (exec .hlt (at_ 1 0 [1])) = some (.halted .hlt, 2) := by decide

/-- UNK-3, UNK-4. -/
theorem test_unassigned :
    statusOf (exec (.unassigned 0xFF) (outer [6])) = some (.halted .unknownOpcode, 1) ∧
      statusOf (exec (.unassigned 0x2B) (faulting (outer [6]))) = some (.faulted (.unknownOpcode 0x2B) 0, 0) := by decide

/-- PUSH-1, through the fetch. -/
theorem test_step_fetches :
    stackOf (step ((outer []).withFetchWord 64 0x0100000000000005)) = some ([5], 1) := by decide

/-- FETCH-1. -/
theorem test_step_outside_code :
    statusOf (step (at_ 256 0 [])) = some (.faulted .fetchOutOfRange 256, 256) := by decide

/-- FETCH-2: the last Code word is fetchable, and zero has no handler. -/
theorem test_step_last_code_word :
    statusOf (step (at_ 255 0 [])) = some (.halted .unknownOpcode, 256) := by decide

/-- TIME-1's height: one value more, one draw taken. -/
theorem test_time_pushes :
    (stateOf (outer []) (exec .time (outer []))).top = 1 ∧
      (stateOf (outer []) (exec .time (outer []))).timeDraws = 1 := by decide

/-! ## Witnesses of the statements' hypotheses -/

theorem witness_DecodeOfEncodeIsTheInstruction :
    OpcodeMap.standard.Injective ∧ Instr.wf OpcodeMap.standard (.push 0xFFFFFFFFFFFFFF) = true ∧
      Instr.wf OpcodeMap.standard (.unassigned 0x2B) = true :=
  ⟨OpcodeMap.standard_injective, by decide, by decide⟩

theorem witness_EncodeOfDecodeKeepsWhatIsRead : OpcodeMap.standard.Injective := OpcodeMap.standard_injective

theorem witness_OnlyPushAndCallDecodeTheOperand :
    OpcodeMap.standard.Injective ∧ (0x02 : Byte) ≠ OpcodeMap.standard.byteOf .push ∧
      (0x02 : Byte) ≠ OpcodeMap.standard.byteOf .call :=
  ⟨OpcodeMap.standard_injective, by decide, by decide⟩

theorem witness_HandlerArrayFollowsOpcodeOf :
    OpcodeMap.standard.Injective ∧ (∃ t, step (outer []) = .next t) :=
  ⟨OpcodeMap.standard_injective, _, rfl⟩

theorem witness_AssembledWordsAreInstructions :
    OpcodeMap.standard.Injective ∧
      assemble OpcodeMap.standard "RET".toList = .ok [0x2900000000000000] ∧
      (0x2900000000000000 : Word) ∈ [(0x2900000000000000 : Word)] :=
  ⟨OpcodeMap.standard_injective, rfl, by decide⟩

/-- The first and the last byte of a word, and the first byte after the image. -/
theorem witness_ProgramImageIsBigEndian :
    ∃ ws : List Word, 0 < ws.length ∧ (0 < 8 ∧ 7 < 8) ∧ 8 * ws.length ≤ 8 := ⟨[1], by decide⟩

theorem witness_FetchReadsBackTheLoadedWord : ∃ ws : List Word, 1 < ws.length := ⟨[1, 2], by decide⟩

/-- The bytes just below and just above the eight written at 2048, and the neighbours of a single byte. -/
theorem witness_DataAccessIsLittleEndian :
    (7 < 8) ∧ (2047 < 2048 ∨ 2048 + 8 ≤ 2047) ∧ (2056 < 2048 ∨ 2048 + 8 ≤ 2056) ∧ (2049 : Nat) ≠ 2048 := by decide

/-- A STORE at relative address 2040, the last that fits, then LOAD8 of its byte 7. -/
theorem witness_StoreThenLoad8ReadsItsByte :
    ∃ s t u : State, s.base + 2 ≤ s.top ∧
      s.cfg.dataBase + (s.slot (s.top - 1)).toNat + 8 ≤ s.cfg.memSize ∧ exec .store s = .next t ∧
      u.mem = t.mem ∧ u.cfg = t.cfg ∧ u.base + 1 ≤ u.top ∧ 7 < 8 ∧
      (u.slot (u.top - 1)).toNat = (s.slot (s.top - 1)).toNat + 7 :=
  ⟨outer [5, 2040], stateOf (outer []) (exec .store (outer [5, 2040])),
    (outer [2047]).setMem (stateOf (outer []) (exec .store (outer [5, 2040]))).mem,
    by decide, by decide, rfl, rfl, rfl, by decide, by decide, by decide⟩

/-- A STORE8 at relative address 2047, the last byte, then LOAD of the word at 2040. -/
theorem witness_Store8ThenLoadReplacesOneByte :
    ∃ s t u : State, s.base + 2 ≤ s.top ∧
      s.cfg.dataBase + (s.slot (s.top - 1)).toNat + 1 ≤ s.cfg.memSize ∧ exec .store8 s = .next t ∧
      u.mem = t.mem ∧ u.cfg = t.cfg ∧ u.base + 1 ≤ u.top ∧ 7 < 8 ∧
      (s.slot (s.top - 1)).toNat = (u.slot (u.top - 1)).toNat + 7 ∧
      s.cfg.dataBase + (u.slot (u.top - 1)).toNat + 8 ≤ s.cfg.memSize :=
  ⟨outer [5, 2047], stateOf (outer []) (exec .store8 (outer [5, 2047])),
    (outer [2040]).setMem (stateOf (outer []) (exec .store8 (outer [5, 2047]))).mem,
    by decide, by decide, rfl, rfl, rfl, by decide, by decide, by decide, by decide⟩

/-- The frame holds exactly `n` values more than none: enough for one clause, one too few for the other. -/
def depthEdge (n : Nat) (s t : State) : Prop := s.base + n = s.top ∧ t.top + 1 = t.base + n

theorem witness_PushResultAndOverflow :
    (cap 1 (outer [])).top < (cap 1 (outer [])).cfg.stackCap ∧
      (cap 1 (outer [7])).cfg.stackCap ≤ (cap 1 (outer [7])).top := by decide

theorem witness_PopResultAndUnderflow : depthEdge 1 (inner [9]) (inner []) := by unfold depthEdge; decide

theorem witness_DupResultAndFaults :
    depthEdge 1 (inner [9]) (inner []) ∧ (cap 7 (inner [9])).top < (cap 7 (inner [9])).cfg.stackCap ∧
      (cap 6 (inner [9])).base + 1 ≤ (cap 6 (inner [9])).top ∧
      (cap 6 (inner [9])).cfg.stackCap ≤ (cap 6 (inner [9])).top := by unfold depthEdge; decide

theorem witness_SwapResultAndUnderflow : depthEdge 2 (inner [9, 8]) (inner [9]) := by unfold depthEdge; decide

theorem witness_AddSubMulWrapTheExactResult : depthEdge 2 (inner [9, 8]) (inner [9]) := by unfold depthEdge; decide

theorem witness_DivModResultsAndFaults :
    depthEdge 2 (inner [9, 1]) (inner [9]) ∧ (inner [9, 1]).slot ((inner [9, 1]).top - 1) ≠ 0 ∧
      (inner [9, 0]).base + 2 ≤ (inner [9, 0]).top ∧ (inner [9, 0]).slot ((inner [9, 0]).top - 1) = 0 := by
  unfold depthEdge; decide

theorem witness_DivAndModSatisfyTheDivisionLaw :
    (inner [9, 1]).base + 2 ≤ (inner [9, 1]).top ∧ (inner [9, 1]).slot ((inner [9, 1]).top - 1) ≠ 0 := by decide

theorem witness_IncDecResultsAndUnderflow : depthEdge 1 (inner [9]) (inner []) := by unfold depthEdge; decide

theorem witness_AndOrXorResultsAndUnderflow : depthEdge 2 (inner [9, 8]) (inner [9]) := by unfold depthEdge; decide

theorem witness_NotResultAndUnderflow : depthEdge 1 (inner [9]) (inner []) := by unfold depthEdge; decide

/-- A count of 64, under each mode. -/
theorem witness_ShiftsFollowTheShiftMode :
    ((inner [9, 64]).cfg.shiftMode = .full ∧ 64 = ((inner [9, 64]).slot ((inner [9, 64]).top - 1)).toNat) ∧
      ((masked (inner [9, 64])).cfg.shiftMode = .masked6 ∧
        0 = ((masked (inner [9, 64])).slot ((masked (inner [9, 64])).top - 1)).toNat % 64) ∧
      depthEdge 2 (inner [9, 64]) (inner [64]) := by unfold depthEdge; decide

theorem witness_ComparisonsPushOneOrZero : depthEdge 2 (inner [9, 8]) (inner [9]) := by unfold depthEdge; decide

/-- Both sides of the end of memory, for 8 bytes and for one. -/
theorem witness_LoadsReadTheDataSegment :
    depthEdge 1 (inner [2040]) (inner []) ∧
      2048 + ((inner [2040]).slot ((inner [2040]).top - 1)).toNat + 8 = (inner [2040]).cfg.memSize ∧
      2048 + ((inner [2041]).slot ((inner [2041]).top - 1)).toNat + 8 = (inner [2041]).cfg.memSize + 1 ∧
      2048 + ((inner [2047]).slot ((inner [2047]).top - 1)).toNat + 1 = (inner [2047]).cfg.memSize ∧
      2048 + ((inner [2048]).slot ((inner [2048]).top - 1)).toNat + 1 = (inner [2048]).cfg.memSize + 1 ∧
      (inner []).cfg.dataBase = 2048 := by unfold depthEdge; decide

theorem witness_StoresWriteOnlyTheirBytes :
    depthEdge 2 (inner [5, 2040]) (inner [2040]) ∧
      2048 + ((inner [5, 2040]).slot ((inner [5, 2040]).top - 1)).toNat + 8 = (inner [5, 2040]).cfg.memSize ∧
      2048 + ((inner [5, 2041]).slot ((inner [5, 2041]).top - 1)).toNat + 8 = (inner [5, 2041]).cfg.memSize + 1 ∧
      2048 + ((inner [5, 2047]).slot ((inner [5, 2047]).top - 1)).toNat + 1 = (inner [5, 2047]).cfg.memSize ∧
      2048 + ((inner [5, 2048]).slot ((inner [5, 2048]).top - 1)).toNat + 1 = (inner [5, 2048]).cfg.memSize + 1 ∧
      (inner []).cfg.dataBase = 2048 := by unfold depthEdge; decide

theorem witness_JmpResultAndUnderflow : depthEdge 1 (inner [9]) (inner []) := by unfold depthEdge; decide

theorem witness_JzJnzBranchOnZero : depthEdge 2 (inner [0, 9]) (inner [9]) := by unfold depthEdge; decide

theorem witness_JnJpBranchOnTheBitTest : depthEdge 2 (inner [0x8000000000000000, 9]) (inner [9]) := by
  unfold depthEdge; decide

theorem witness_CompareBranchesAreUnsigned : depthEdge 3 (inner [4, 4, 9]) (inner [4, 9]) := by
  unfold depthEdge; decide

theorem witness_TimePushesAFreshDraw :
    (cap 1 (outer [])).top < (cap 1 (outer [])).cfg.stackCap ∧
      (cap 1 (outer [7])).cfg.stackCap ≤ (cap 1 (outer [7])).top := by decide

theorem witness_SpaceResultAndOverflow :
    (cap 1 (outer [])).top < (cap 1 (outer [])).cfg.stackCap ∧
      (cap 1 (outer [7])).cfg.stackCap ≤ (cap 1 (outer [7])).top := by decide

/-- A CALL that just fits, one with no count, one with an argument too few, one that is a slot too long. -/
theorem witness_CallBuildsTheFrame :
    (2 = ((cap 7 (outer [4, 5, 2])).slot 2).toNat ∧ 0 + (2 + 1) = (cap 7 (outer [4, 5, 2])).top ∧
        3 + 2 + 2 = (cap 7 (outer [4, 5, 2])).cfg.stackCap) ∧
      (inner []).top < (inner []).base + 1 ∧
      (2 = ((outer [5, 2]).slot 1).toNat ∧ (outer [5, 2]).top + 1 = 0 + (2 + 1)) ∧
      (2 = ((cap 6 (outer [4, 5, 2])).slot 2).toNat ∧ 0 + (2 + 1) ≤ (cap 6 (outer [4, 5, 2])).top ∧
        (cap 6 (outer [4, 5, 2])).cfg.stackCap + 1 = 3 + 2 + 2) := by decide

/-- A return with and without a value from the example frame; no frame; a count one too large; a link one too high. -/
theorem witness_RetUnwindsTheFrame :
    (3 ≤ (inner [9]).base ∧ 2 = ((inner [9]).slot 2).toNat ∧ 2 = (inner [9]).base - 3 ∧
        0 = ((inner [9]).slot 4).toNat ∧ 0 = (inner [9]).base - 3 - 2 ∧ (inner [9]).base + 1 = (inner [9]).top) ∧
      (inner []).top = (inner []).base ∧ (at_ 2 2 [7, 7]).base < 3 ∧
      ((at_ 2 3 [1, 0, 0]).base = 3 ∧ ((at_ 2 3 [1, 0, 0]).slot 0).toNat = 3 - 3 + 1) ∧
      ((at_ 2 3 [0, 0, 1]).base = 3 ∧ ((at_ 2 3 [0, 0, 1]).slot 0).toNat = 0 ∧
        ((at_ 2 3 [0, 0, 1]).slot 2).toNat = 3 - 3 - 0 + 1) := by decide

theorem witness_UnknownOpcodeFollowsThePolicy :
    (outer []).cfg.unknownPolicy = .halt ∧ (faulting (outer [])).cfg.unknownPolicy = .fault := by decide

/-- HLT in the last word of Code. -/
theorem witness_StepRunsTheDecodedInstruction :
    ∃ s : State, s.status = .running ∧ 8 * s.ip.toNat + 8 = s.cfg.romSize + s.cfg.codeSize ∧
      Instr.wf s.cfg.opcodes .hlt = true ∧
      decodeBytes s.cfg.opcodes (Memory.readBytes s.mem (8 * s.ip.toNat) 8) = .ok (.hlt, []) :=
  ⟨withBytes 2040 [0x2A] (at_ 255 0 []), by decide, by decide, by decide, rfl⟩

theorem witness_FetchOutsideRomAndCodeFaults :
    (at_ 256 0 []).status = .running ∧
      (at_ 256 0 []).cfg.romSize + (at_ 256 0 []).cfg.codeSize + 8 = 8 * (at_ 256 0 []).ip.toNat + 8 := by decide

/-- JMP in the last word of Code to 256, the first index that cannot be fetched. -/
theorem witness_UnfetchableJumpFaultsOneStepLater :
    ∃ s : State, s.status = .running ∧ 8 * s.ip.toNat + 8 ≤ s.cfg.dataBase ∧
      decodeWord s.cfg.opcodes (fetchRead s.mem (8 * s.ip.toNat)) = .jmp ∧ s.base + 1 ≤ s.top ∧
      s.cfg.dataBase < 8 * (s.slot (s.top - 1)).toNat + 8 :=
  ⟨withBytes 2040 [0x1B] (at_ 255 0 [256]), by decide⟩

theorem witness_StoppedCoreHasNoStep :
    (stateOf (outer []) (exec .hlt (outer []))).status ≠ .running ∧
      (stateOf (outer []) (exec .pop (outer []))).status ≠ .running := by decide

theorem witness_RunningCoreStepsInFourWays : (outer []).status = .running := by decide

theorem witness_FaultsArePrecise :
    ∃ t, step (withBytes 0 [0x02] (outer [])) = .next t ∧ t.status = .faulted .stackUnderflow 0 :=
  ⟨_, rfl, by decide⟩

theorem witness_InstructionsRaiseOnlyTheirFaults :
    ∃ t, (inner [7, 0]).status = .running ∧ exec .mod (inner [7, 0]) = .next t ∧
      t.status = .faulted .arithmeticError 8 :=
  ⟨_, rfl, rfl, by decide⟩

theorem witness_OnlyControlTransfersWriteIp :
    ∃ t, (outer [1, 2]).status = .running ∧ exec .add (outer [1, 2]) = .next t ∧
      (∀ m, Instr.mnemonic .add = some m → m ∉ ipWriters) ∧ (∀ k a, t.status ≠ .faulted k a) :=
  ⟨(((outer [1, 2]).advance.setSlot 0 3).setTop 1), rfl, rfl, fun m h => by cases h; decide, fun k a h => by cases h⟩

theorem witness_OnlyCallAndRetWriteBase :
    ∃ t, exec (.call 6) (outer [4, 5, 2]) = .next t ∧ t.base ≠ (outer [4, 5, 2]).base := ⟨_, rfl, by decide⟩

theorem witness_SlotsBelowBaseAreKept :
    ∃ t, (Instr.swap ≠ .ret) ∧ (inner [1, 2]).base ≤ (inner [1, 2]).top ∧ exec .swap (inner [1, 2]) = .next t ∧
      4 < (inner [1, 2]).base := ⟨_, by decide, by decide, rfl, by decide⟩

/-- Two states that differ in the dead slot 1. -/
theorem witness_DeadSlotsAreNeverRead :
    ∃ s', (outer [7]).base ≤ (outer [7]).top ∧ AgreeBelowTop (outer [7]) ((outer [7]).setSlot 1 9) ∧
      ((outer [7]).setSlot 1 9).slot 1 ≠ (outer [7]).slot 1 ∧ step (outer [7]) = .next s' :=
  ⟨_, by decide, ⟨rfl, rfl, rfl, rfl, rfl, rfl, rfl, by decide⟩, by decide, rfl⟩

/-- Two states that differ in the slot just below `base` and in one just above `top`. -/
theorem witness_OnlyRetReadsBelowTheFrame :
    ∃ s', (Instr.swap ≠ .ret) ∧ (inner [1, 2]).base ≤ (inner [1, 2]).top ∧
      AgreeOnFrame (inner [1, 2]) (((inner [1, 2]).setSlot 4 9).setSlot 7 9) ∧
      exec .swap (inner [1, 2]) = .next s' := by
  refine ⟨_, by decide, by decide, ⟨rfl, rfl, rfl, rfl, rfl, rfl, rfl, ?_⟩, rfl⟩
  have h : ∀ k, k < 7 → 5 ≤ k → (((inner [1, 2]).setSlot 4 9).setSlot 7 9).slot k = (inner [1, 2]).slot k := by decide
  exact fun k h1 h2 => h k h2 h1

/-- A step that stores, and the last byte of Code. -/
theorem witness_NoRunChangesRomOrCode :
    ∃ t, Reaches (withBytes 0 [0x18] (outer [5, 0])) t ∧ t.mem ≠ (withBytes 0 [0x18] (outer [5, 0])).mem ∧
      2047 < (outer []).cfg.dataBase :=
  ⟨stateOf (outer []) (step (withBytes 0 [0x18] (outer [5, 0]))), .step _ _ .here rfl, by decide, by decide⟩

/-- A ROM of one word, full. -/
theorem witness_EveryRunFetchesTheLoadedProgram :
    ∃ (vm : Vm) (t : State), vm.program.length = vm.cfg.romWords ∧ Reaches vm.launchState t ∧ 0 < vm.program.length :=
  ⟨⟨{ Config.standard with romSize := 8 }, [], [0x0100000000000005], none⟩, _, by decide, .here, by decide⟩

/-- The example frame meets the invariant. -/
theorem inner_inv : (inner [9]).Inv where
  config := Config.standard_wellFormed
  baseTop := by decide
  topCap := by decide
  chain := .frame 5 (by decide) (by decide) (by decide) .outermost
  memWf := rfl
  memBelow := rfl
  slotsWf := by decide
  slotsBelow := by decide

theorem witness_EveryStepKeepsTheInvariant : (inner [9]).Inv ∧ ∃ t, step (inner [9]) = .next t := ⟨inner_inv, _, rfl⟩

/-- A program that fills ROM. -/
theorem witness_LaunchMeetsTheInvariant :
    ∃ vm : Vm, vm.cfg.WellFormed ∧ vm.mem = vm.cfg.initMem ∧ vm.program.length = vm.cfg.romWords :=
  ⟨⟨Config.standard, [], List.replicate 128 1, none⟩, Config.standard_wellFormed, rfl,
    List.length_replicate.trans (by decide)⟩

theorem witness_RetFailsOnlyInTheOutermostFrame : (inner [9]).Inv ∧ (inner [9]).base ≠ 0 := ⟨inner_inv, by decide⟩

/-- A CALL without arguments from the example frame, whose callee pushes a value. -/
theorem witness_MatchedCallAndRetRestoreTheCaller :
    ∃ s s1 s2 : State, s.Inv ∧ 0 = (s.slot (s.top - 1)).toNat ∧ s.base + (0 + 1) ≤ s.top ∧
      s.top + 2 + 0 ≤ s.cfg.stackCap ∧ exec (.call 20) s = .next s1 ∧ RunsAbove s1.base s1 s2 ∧ s2.base = s1.base ∧
      s2.base < s2.top := by
  have hinv : (withBytes 160 [0x01] (inner [0])).Inv :=
    { config := Config.standard_wellFormed, baseTop := by decide, topCap := by decide,
      chain := .frame 5 (by decide) (by decide) (by decide) .outermost,
      memWf := by decide, memBelow := by decide, slotsWf := by decide, slotsBelow := by decide }
  exact ⟨_, stateOf (outer []) (exec (.call 20) (withBytes 160 [0x01] (inner [0]))),
    stateOf (outer []) (step (stateOf (outer []) (exec (.call 20) (withBytes 160 [0x01] (inner [0]))))), hinv,
    by decide, by decide, by decide, rfl, .step _ _ (.here (by decide)) rfl (by decide), by decide, by decide⟩

theorem witness_ConstructChecksTheMemorySize :
    3071 + 1 = Config.standard.romSize + Config.standard.codeSize + Config.standard.dataSize ∧
      ({ Config.standard with memSize := 3071 } : Config).memSize < 3072 ∧
      3072 ≤ ({ Config.standard with memSize := 3072 } : Config).memSize := by decide

theorem witness_AppendStopsAtRomCapacity :
    ∃ vm full ran : Vm, (vm.core = none ∧ vm.program.length + 1 = vm.cfg.romSize / 8) ∧
      (full.core = none ∧ full.cfg.romSize / 8 = full.program.length) ∧ ran.core ≠ none :=
  ⟨⟨{ Config.standard with romSize := 8 }, [], [], none⟩, ⟨{ Config.standard with romSize := 8 }, [], [1], none⟩,
    ⟨Config.standard, [], [], some (outer [])⟩, by decide⟩

theorem witness_RunStartsFromTheLoadedImage :
    ∃ vm ran : Vm, (vm.core = none ∧ 0 < vm.program.length ∧ 7 < 8 ∧ 8 * vm.program.length ≤ 8) ∧ ran.core ≠ none :=
  ⟨⟨Config.standard, [], [1], none⟩, ⟨Config.standard, [], [], some (outer [])⟩, by decide⟩

/-- A program of one HLT. -/
def haltVm : Vm := ⟨Config.standard, [], [0x2A00000000000000], none⟩

/-- One turn of the loop ends it. -/
theorem witness_RunOutcomeIsUnique : ∃ t : State, haltVm.Returns (.halted .hlt) t := ⟨_, 1, rfl⟩

/-- A live slot, the first and the last dead one, the last byte; and a run that stops after one turn. -/
theorem witness_IntrospectionReadsSlotsAndBytes :
    (∃ (vm : Vm) (s : State), vm.core = some s ∧ (0 < vm.cfg.stackCap ∧ 0 < s.top) ∧
      (19999 < vm.cfg.stackCap ∧ s.top ≤ 19999) ∧ (1 < vm.cfg.stackCap ∧ s.top ≤ 1) ∧ 4095 + 1 ≤ vm.cfg.memSize) ∧
      haltVm.core = none ∧ (State.runFor 1 haltVm.launchState).status ≠ .running :=
  ⟨⟨⟨Config.standard, [], [], some (outer [7])⟩, outer [7], rfl, by decide⟩, rfl, by decide⟩

/-- R220, on PUSH 5 and HLT: the final slot and registers are read in the VM that `run()` leaves. -/
theorem test_run_keeps_final_state :
    ∃ vm', Vm.run 2 ⟨Config.standard, [], [0x0100000000000005, 0x2A00000000000000], none⟩ =
        .next (vm', some (.halted .hlt)) ∧
      vm'.inspectSlot 0 99 = .next 5 ∧ vm'.inspectRegisters ⟨9, 9, 9⟩ = ⟨1, 0, 2⟩ := ⟨_, rfl, rfl, rfl⟩

end Sys2Proof.Tests
end

namespace Sys2Proof.Machine

variable {s t : State} {i : Instr}

/-! ## Slot reads after a slot write and after CALL's frame copy -/

theorem State.slot_setSlot_ne (s : State) {j k : Nat} (v : Word) (h : j ≠ k) : (s.setSlot k v).slot j = s.slot j :=
  Cells.read_write_ne _ _ h

/-- CALL writes no slot below the old `top` (R186). -/
theorem read_callSlots_of_lt (s : State) (n : Nat) {k : Nat} (h : k < s.top) :
    Cells.read (callSlots s n) k = s.slot k := by
  rw [callSlots, read_copySlots_ne _ _ _ _ (by omega), Cells.read_write_ne _ _ (by omega),
    Cells.read_write_ne _ _ (by omega), State.slot]

/-- CALL saves the return address in the slot at the old `top` (R34, R186). -/
theorem read_callSlots_returnIp (s : State) (n : Nat) : Cells.read (callSlots s n) s.top = s.ip + 1 := by
  rw [callSlots, read_copySlots_ne _ _ _ _ (by omega), Cells.read_write_ne _ _ (by omega), Cells.read_write_same]

/-- CALL saves the caller's `base` in the slot above the return address (R34, R186). -/
theorem read_callSlots_savedBase (s : State) (n : Nat) :
    Cells.read (callSlots s n) (s.top + 1) = BitVec.ofNat 64 s.base := by
  rw [callSlots, read_copySlots_ne _ _ _ _ (by omega), Cells.read_write_same]

/-- CALL copies the arguments, which lie below the count, into the callee's frame (R186). -/
theorem read_callSlots_argument (s : State) {n k : Nat} (hn : n + 1 ≤ s.top) (hk : k < n) :
    Cells.read (callSlots s n) (s.top + 2 + k) = s.slot (s.top - 1 - n + k) := by
  rw [callSlots, read_copySlots_at _ _ _ _ (by omega) _ hk, Cells.read_write_ne _ _ (by omega),
    Cells.read_write_ne _ _ (by omega), State.slot]

/-! ## What an instruction writes: `ip`, `base`, and the slots below `base` -/

/-- Settles O44: of the forms a next state can take, only those of the jumps, CALL and RET set `ip` otherwise. -/
theorem onlyControlTransfersWriteIp : Obligations.OnlyControlTransfersWriteIp := by
  intro i s t _ h hwriter
  refine exec_cases (P := fun t => (∀ k a, t.status ≠ .faulted k a) → t.ip = s.ip + 1) h
    (fault := fun k hk => absurd rfl (hk k s.ip)) (push := fun _ _ _ => rfl) (replaceOne := fun _ _ _ => rfl)
    (replaceTwo := fun _ _ _ => rfl) (popOne := fun _ _ => rfl) (swapTwo := fun _ _ => rfl) (jump := ?_)
    (store := fun _ _ _ _ => rfl) (time := fun _ _ => rfl) (call := ?_) (returnValue := ?_) (returnNothing := ?_)
    (halt := fun _ _ => rfl) (unknown := fun _ _ _ _ => rfl)
  · rintro n v _ ⟨m, hm, hw⟩
    exact absurd hw (hwriter m hm)
  · rintro target rfl
    exact absurd (by decide) (hwriter .call rfl)
  all_goals
    rintro rfl
    exact absurd (by decide) (hwriter .ret rfl)

/-- Settles O45: every other form of the next state keeps `base` by its update rules. -/
theorem onlyCallAndRetWriteBase : Obligations.OnlyCallAndRetWriteBase := by
  intro i s t h
  exact exec_cases (P := fun t => t.base ≠ s.base → i = .ret ∨ ∃ target, i = .call target) h
    (fault := fun _ hb => absurd rfl hb) (push := fun _ _ hb => absurd rfl hb)
    (replaceOne := fun _ _ hb => absurd rfl hb) (replaceTwo := fun _ _ hb => absurd rfl hb)
    (popOne := fun _ hb => absurd rfl hb) (swapTwo := fun _ hb => absurd rfl hb)
    (jump := fun _ _ _ _ hb => absurd rfl hb) (store := fun _ _ _ hb => absurd rfl hb)
    (time := fun _ hb => absurd rfl hb) (call := fun target hi _ _ _ => .inr ⟨target, hi⟩)
    (returnValue := fun hi _ _ _ => .inl hi) (returnNothing := fun hi _ _ _ => .inl hi)
    (halt := fun _ hb => absurd rfl hb) (unknown := fun _ _ _ hb => absurd rfl hb)

/-- Settles O46: a write lands at `top` or in the frame, and CALL writes at `top` and above. -/
theorem slotsBelowBaseAreKept : Obligations.SlotsBelowBaseAreKept := by
  intro i s t hret hbt h k hk
  refine exec_cases (P := fun t => t.slot k = s.slot k) h
    (fault := fun _ => rfl) (push := fun v _ => ?_) (replaceOne := fun v hd => ?_)
    (replaceTwo := fun v hd => ?_) (popOne := fun _ => rfl) (swapTwo := fun hd => ?_)
    (jump := fun _ _ _ _ => rfl) (store := fun _ _ _ => rfl) (time := fun _ => ?_)
    (call := fun _ _ _ _ => read_callSlots_of_lt s _ (by omega))
    (returnValue := fun hi => absurd hi hret) (returnNothing := fun hi => absurd hi hret)
    (halt := fun _ => rfl) (unknown := fun _ _ _ => rfl)
  · exact State.slot_setSlot_ne s.advance v (by omega)
  · exact State.slot_setSlot_ne s.advance v (by omega)
  · exact State.slot_setSlot_ne s.advance v (by omega)
  · rw [State.slot_setSlot_ne _ _ (by omega), State.slot_setSlot_ne _ _ (by omega), State.advance_slot]
  · exact State.slot_setSlot_ne _ _ (by omega)

/-! ## The invariant -/

/-- The invariant speaks of the configuration, the frame registers and the arrays; `ip`, `status` and the draw counter
are free. -/
theorem State.Inv.advance (h : s.Inv) : s.advance.Inv := { h with }

theorem State.Inv.setIp (h : s.Inv) (v : Word) : (s.setIp v).Inv := { h with }

theorem State.Inv.setStatus (h : s.Inv) (x : Status) : (s.setStatus x).Inv := { h with }

theorem State.Inv.setTimeDraws (h : s.Inv) (n : Nat) : (s.setTimeDraws n).Inv := { h with }

theorem State.Inv.setTop {n : Nat} (h : s.Inv) (hbase : s.base ≤ n) (hcap : n ≤ s.cfg.stackCap) : (s.setTop n).Inv :=
  { h with baseTop := hbase, topCap := hcap }

theorem State.Inv.setMem {m : Memory} (h : s.Inv) (hwf : m.wf = true) (hbelow : Cells.below s.cfg.memSize m = true) :
    (s.setMem m).Inv :=
  { h with memWf := hwf, memBelow := hbelow }

/-- The slots may change at will at and above `base`: no link of the chain lies there. -/
theorem State.Inv.setSlots {m : Slots} (h : s.Inv) (hkept : ∀ k, k < s.base → Cells.read m k = s.slot k)
    (hwf : Cells.wf m = true) (hbelow : Cells.below s.cfg.stackCap m = true) : (s.setSlots m).Inv :=
  { h with chain := FrameChain_congr h.chain hkept, slotsWf := hwf, slotsBelow := hbelow }

theorem State.Inv.setSlot {k : Nat} (h : s.Inv) (v : Word) (hbase : s.base ≤ k) (hcap : k < s.cfg.stackCap) :
    (s.setSlot k v).Inv :=
  h.setSlots (fun _ hj => Cells.read_write_ne _ v (Nat.ne_of_lt (hj.trans_le hbase))) (Cells.wf_write k v h.slotsWf)
    (Cells.below_write v h.slotsBelow hcap)

/-- The frame registers may move to any frame whose chain the slots hold. -/
theorem State.Inv.setFrame {b n : Nat} (h : s.Inv) (hchain : FrameChain s.S b) (hbase : b ≤ n)
    (hcap : n ≤ s.cfg.stackCap) : ((s.setBase b).setTop n).Inv :=
  { h with baseTop := hbase, topCap := hcap, chain := hchain }

/-- CALL adds one link to the chain: the count is the caller's top slot, the saved base is `base` (R34, R186). -/
theorem frameChain_callSlots (h : s.Inv) (hdepth : s.base + (s.callCount + 1) ≤ s.top) :
    FrameChain (callSlots s s.callCount) (s.top + 2) := by
  have hbt := h.baseTop
  have htc := h.topCap
  have hword := h.config.capWord
  have hcount : (Cells.read (callSlots s s.callCount) (s.top + 2 - 3)).toNat = s.callCount := by
    rw [read_callSlots_of_lt s _ (by omega)]; rfl
  have hlink : (Cells.read (callSlots s s.callCount) (s.top + 2 - 1)).toNat = s.base := by
    rw [show s.top + 2 - 1 = s.top + 1 by omega, read_callSlots_savedBase, BitVec.toNat_ofNat,
      Nat.mod_eq_of_lt (by omega)]
  refine .frame _ (by omega) (by omega) (by omega) ?_
  rw [hlink]
  exact FrameChain_congr h.chain fun k hk => read_callSlots_of_lt s _ (by omega)

theorem State.Inv.call (h : s.Inv) (target : Word) (hdepth : s.base + (s.callCount + 1) ≤ s.top)
    (hcap : s.top + 2 + s.callCount ≤ s.cfg.stackCap) :
    ((((s.setSlots (callSlots s s.callCount)).setBase (s.top + 2)).setTop (s.top + 2 + s.callCount)).setIp
      target).Inv := by
  have hbt := h.baseTop
  have hslots : (s.setSlots (callSlots s s.callCount)).Inv := by
    refine h.setSlots (fun k hk => read_callSlots_of_lt s _ (hk.trans_le hbt)) ?_ ?_
    · exact copySlots_wf _ _ _ (Cells.wf_write _ _ (Cells.wf_write _ _ h.slotsWf))
    · exact copySlots_below (Cells.below_write _ (Cells.below_write _ h.slotsBelow (by omega)) (by omega)) hcap
  exact (hslots.setFrame (frameChain_callSlots h hdepth) (Nat.le_add_right _ _) hcap).setIp target

/-- RET unwinds to a slot of the caller below the metadata of the frame it leaves (R187). -/
theorem unwoundTop_lt_base (hret : s.canReturn = true) : s.unwoundTop < s.base := by
  obtain ⟨hbase, -, -⟩ := (State.canReturn_iff s).mp hret
  unfold State.unwoundTop
  omega

/-- RET's checks and the chain give a well-linked caller (R187). -/
theorem State.Inv.unwind (h : s.Inv) (hret : s.canReturn = true) :
    ((s.setBase s.savedBase).setTop s.unwoundTop).Inv := by
  obtain ⟨hbase, -, hsaved⟩ := (State.canReturn_iff s).mp hret
  obtain ⟨-, -, -, caller⟩ := FrameChain_of_ne_zero h.chain (by omega)
  exact h.setFrame caller hsaved (((unwoundTop_lt_base hret).le.trans h.baseTop).trans h.topCap)

/-- RET with a value pushes it onto the unwound frame. -/
theorem State.Inv.unwindPush (h : s.Inv) (v : Word) (hret : s.canReturn = true) :
    ((((s.setSlot s.unwoundTop v).setTop (s.unwoundTop + 1)).setBase s.savedBase)).Inv := by
  have hlt := unwoundTop_lt_base hret
  have hu := h.unwind hret
  have hcap : s.unwoundTop < s.cfg.stackCap := (hlt.trans_le h.baseTop).trans_le h.topCap
  exact (hu.setSlot v hu.baseTop hcap).setTop (Nat.le_succ_of_le hu.baseTop) hcap

/-- Executing any instruction keeps the invariant. -/
theorem State.Inv.of_exec (h : s.Inv) (hx : exec i s = .next t) : t.Inv := by
  have hbt := h.baseTop
  have htc := h.topCap
  refine exec_cases (P := State.Inv) hx (fault := fun k => h.setStatus _) (push := fun v hr => ?push)
    (replaceOne := fun v hd => ?replaceOne) (replaceTwo := fun v hd => ?replaceTwo) (popOne := fun hd => ?popOne)
    (swapTwo := fun hd => ?swapTwo) (jump := fun n v hd _ => ?jump) (store := fun n hd hm => ?store)
    (time := fun hr => ?time) (call := fun target _ hd hc => h.call _ hd hc)
    (returnValue := fun _ hret _ => (h.unwindPush _ hret).setIp _)
    (returnNothing := fun _ hret _ => (h.unwind hret).setIp _)
    (halt := fun _ => h.advance.setStatus _) (unknown := fun _ _ _ => h.advance.setStatus _)
  case push => exact (h.advance.setSlot v hbt hr).setTop (Nat.le_succ_of_le hbt) hr
  case replaceOne => exact h.advance.setSlot v (Nat.le_sub_of_add_le hd) (by simp only [State.advance_cfg]; omega)
  case replaceTwo =>
    refine (h.advance.setSlot v (Nat.le_sub_of_add_le hd) ?_).setTop ?_ ?_
    all_goals simp only [State.setSlot_base, State.setSlot_cfg, State.advance_base, State.advance_cfg]; omega
  case popOne => exact h.advance.setTop (Nat.le_sub_of_add_le hd) ((Nat.sub_le _ _).trans htc)
  case swapTwo =>
    refine (h.advance.setSlot _ (Nat.le_sub_of_add_le hd) ?_).setSlot _ ?_ ?_
    all_goals simp only [State.setSlot_base, State.setSlot_cfg, State.advance_base, State.advance_cfg]; omega
  case jump => exact (h.setIp v).setTop (Nat.le_sub_of_add_le hd) ((Nat.sub_le _ _).trans htc)
  case store =>
    exact (h.advance.setMem (memWrite_wf _ n _ h.memWf) (memWrite_below _ h.memBelow hm)).setTop
      (Nat.le_sub_of_add_le hd) ((Nat.sub_le _ _).trans htc)
  case time => exact ((h.setTimeDraws (s.timeDraws + 1)).advance.setSlot _ hbt hr).setTop (Nat.le_succ_of_le hbt) hr

/-- Settles O51, by the cases of a step: it executes an instruction or raises the fetch fault, which writes
`status` alone. -/
theorem everyStepKeepsTheInvariant : Obligations.EveryStepKeepsTheInvariant := by
  intro s t h hs
  obtain ⟨-, ⟨-, hx⟩ | ⟨-, rfl⟩⟩ := step_cases hs
  · exact h.of_exec hx
  · exact h.setStatus _

/-- A run starts in the outermost frame, with no slot listed (R36). -/
theorem runStart_inv {cfg : Config} {mem : Memory} (hcfg : cfg.WellFormed) (hwf : mem.wf = true)
    (hbelow : Cells.below cfg.memSize mem = true) : (State.runStart cfg mem).Inv where
  config := hcfg
  baseTop := Nat.le_refl 0
  topCap := Nat.zero_le _
  chain := .outermost
  memWf := hwf
  memBelow := hbelow
  slotsWf := rfl
  slotsBelow := rfl

/-- The loader writes only the 8 bytes of each program word. -/
theorem loadImage_below {n first : Nat} {ws : List Word} {mem : Memory} (hmem : Cells.below n mem = true)
    (hfit : 8 * (first + ws.length) ≤ n) : Cells.below n (loadImage first ws mem) = true := by
  induction ws generalizing first mem with
  | nil => exact hmem
  | cons x ws ih =>
    rw [List.length_cons] at hfit
    refine ih (Memory.below_writeBytes _ hmem ?_) (by omega)
    rw [bytesBE_length]
    omega

/-- A program that fits in ROM fits in memory (R6). -/
theorem romWords_le_memSize {cfg : Config} (h : cfg.WellFormed) : 8 * cfg.romWords ≤ cfg.memSize := by
  have := h.fits
  simp only [Config.segmentSum] at this
  unfold Config.romWords
  omega

/-- Settles O52: reset is a run start over the default `INIT_MEM`. -/
theorem resetMeetsTheInvariant : Obligations.ResetMeetsTheInvariant :=
  runStart_inv Config.standard_wellFormed Config.standard_wellFormed.initWf Config.standard_wellFormed.initBelow

/-- Settles O53: loading the program keeps memory's form and bounds. -/
theorem launchMeetsTheInvariant : Obligations.LaunchMeetsTheInvariant := by
  intro vm hcfg hmem hfit
  have hbelow : Cells.below vm.cfg.memSize vm.mem = true := hmem ▸ hcfg.initBelow
  have hwf : vm.mem.wf = true := hmem ▸ hcfg.initWf
  have hsize := romWords_le_memSize hcfg
  exact runStart_inv hcfg (loadImage_wf _ hwf) (loadImage_below hbelow (by omega))

end Sys2Proof.Machine

/-! ## Two states that differ in slots outside a region

`t` differs from `s` in slots alone exactly if it is `s.setSlots m`. So noninterference is a statement about `s` and
another slot array `m`, and every register and byte is the same by definition. -/

namespace Sys2Proof.Machine

variable {lo hi : Nat} {m m' : Slots} {s a b : State} {o o' : Outcome}

/-- Two slot arrays agree on `[lo, hi)`. -/
def SlotsAgree (lo hi : Nat) (m m' : Slots) : Prop := ∀ k, lo ≤ k → k < hi → Cells.read m' k = Cells.read m k

theorem SlotsAgree.mono {lo' hi' : Nat} (h : SlotsAgree lo hi m m') (hlo : lo ≤ lo') (hhi : hi' ≤ hi) :
    SlotsAgree lo' hi' m m' :=
  fun k h1 h2 => h k (hlo.trans h1) (h2.trans_le hhi)

/-- The slot written agrees afterwards, wherever it lies. -/
theorem SlotsAgree.write_or {k j : Nat} (v : Word) (h : k ≠ j → Cells.read m' k = Cells.read m k) :
    Cells.read (Cells.write m' j v) k = Cells.read (Cells.write m j v) k := by
  by_cases hk : k = j
  · subst hk; simp
  · rw [Cells.read_write_ne _ _ hk, Cells.read_write_ne _ _ hk, h hk]

theorem SlotsAgree.write (h : SlotsAgree lo hi m m') (j : Nat) (v : Word) :
    SlotsAgree lo hi (Cells.write m j v) (Cells.write m' j v) :=
  fun k h1 h2 => write_or v fun _ => h k h1 h2

/-- A push makes the region one slot longer. -/
theorem SlotsAgree.push (h : SlotsAgree lo hi m m') (v : Word) :
    SlotsAgree lo (hi + 1) (Cells.write m hi v) (Cells.write m' hi v) :=
  fun k h1 h2 => write_or v fun hk => h k h1 (by omega)

/-- The values an instruction takes from its frame lie in the region. -/
theorem SlotsAgree.operand {k n : Nat} (h : SlotsAgree lo s.top s.S m) (hlo : lo ≤ s.base)
    (hd : s.hasDepth n = true) (hk : 1 ≤ k := by decide) (hkn : k ≤ n := by decide) :
    (s.setSlots m).operand k = s.operand k := by
  have := (s.hasDepth_iff n).mp hd
  exact h (s.top - k) (by omega) (by omega)

/-- CALL fills the two slots above `top` and the callee's frame alike, since its arguments lie in the region (R186). -/
theorem SlotsAgree.callSlots {n : Nat} (h : SlotsAgree lo s.top s.S m) (hn : lo + (n + 1) ≤ s.top) :
    SlotsAgree lo (s.top + 2 + n) (callSlots s n) (callSlots (s.setSlots m) n) := by
  intro k hlo hhi
  obtain hk | rfl | rfl | ⟨j, hj, rfl⟩ :
      k < s.top ∨ k = s.top ∨ k = s.top + 1 ∨ ∃ j, j < n ∧ k = s.top + 2 + j := by
    by_cases hk : k < s.top + 2
    · omega
    · exact .inr (.inr (.inr ⟨k - (s.top + 2), by omega, by omega⟩))
  · rw [read_callSlots_of_lt s n hk, read_callSlots_of_lt (s.setSlots m) n hk]
    exact h k hlo hk
  · exact (read_callSlots_returnIp (s.setSlots m) n).trans (read_callSlots_returnIp s n).symm
  · exact (read_callSlots_savedBase (s.setSlots m) n).trans (read_callSlots_savedBase s n).symm
  · have hn' : n + 1 ≤ s.top := by omega
    rw [read_callSlots_argument s hn' hj]
    exact (read_callSlots_argument (s.setSlots m) hn' hj).trans (h (s.top - 1 - n + j) (by omega) (by omega))

/-- A check that is made only after another has passed need agree only there. -/
theorem and_eq_and_of_imp {c d d' : Bool} (h : c = true → d = d') : (c && d) = (c && d') := by
  cases c with
  | false => rfl
  | true => exact h rfl

/-! ## Outcomes that agree from a slot on -/

/-- Whatever next state `o` answers, `o'` answers it too, but for slots outside `[lo, top)`. -/
def AnswersAlike (lo : Nat) (o o' : Outcome) : Prop :=
  ∀ s', o = .next s' → ∃ m', o' = .next (s'.setSlots m') ∧ SlotsAgree lo s'.top s'.S m'

theorem answersAlike_next (hb : b = a.setSlots b.S) (h : SlotsAgree lo a.top a.S b.S) :
    AnswersAlike lo (.next a) (.next b) := by
  rintro _ ⟨⟩
  exact ⟨b.S, congrArg _ hb, h⟩

theorem answersAlike_fail (k : FaultKind) (h : SlotsAgree lo s.top s.S m) :
    AnswersAlike lo (fail k s) (fail k (s.setSlots m)) :=
  answersAlike_next rfl h

/-- Two outcomes that make the same check. -/
theorem answersAlike_ite {c : Prop} [Decidable c] {p p' q q' : Outcome} (hp : c → AnswersAlike lo p p')
    (hq : ¬ c → AnswersAlike lo q q') : AnswersAlike lo (if c then p else q) (if c then p' else q') := by
  split
  · next hc => exact hp hc
  · next hc => exact hq hc

section Operations

variable (h : SlotsAgree lo s.top s.S m) (hlo : lo ≤ s.base)

include h

theorem pushValue_alike (v : Word) : AnswersAlike lo (pushValue v s) (pushValue v (s.setSlots m)) :=
  answersAlike_ite (fun _ => answersAlike_next rfl (h.push v)) fun _ => answersAlike_fail _ h

theorem execTime_alike : AnswersAlike lo (execTime s) (execTime (s.setSlots m)) :=
  answersAlike_ite (fun _ => pushValue_alike (s := s.setTimeDraws (s.timeDraws + 1)) h _) fun _ => answersAlike_fail _ h

theorem execPop_alike : AnswersAlike lo (execPop s) (execPop (s.setSlots m)) :=
  answersAlike_ite (fun _ => answersAlike_next rfl (h.mono le_rfl (Nat.sub_le _ _))) fun _ => answersAlike_fail _ h

theorem execHlt_alike : AnswersAlike lo (execHlt s) (execHlt (s.setSlots m)) := answersAlike_next rfl h

theorem execUnassigned_alike (opcode : Byte) :
    AnswersAlike lo (execUnassigned opcode s) (execUnassigned opcode (s.setSlots m)) := by
  unfold execUnassigned
  rw [State.setSlots_cfg]
  cases s.cfg.unknownPolicy with
  | halt => exact answersAlike_next rfl h
  | fault => exact answersAlike_fail _ h

include hlo

theorem replaceTop_alike (f : Word → Word) : AnswersAlike lo (replaceTop f s) (replaceTop f (s.setSlots m)) := by
  refine answersAlike_ite (fun hd => ?_) fun _ => answersAlike_fail _ h
  rw [h.operand hlo hd]
  exact answersAlike_next rfl (h.write _ _)

theorem replaceTopTwo_alike (f : Word → Word → Word) :
    AnswersAlike lo (replaceTopTwo f s) (replaceTopTwo f (s.setSlots m)) := by
  refine answersAlike_ite (fun hd => ?_) fun _ => answersAlike_fail _ h
  rw [h.operand hlo hd, h.operand hlo hd]
  exact answersAlike_next rfl ((h.write _ _).mono le_rfl (Nat.sub_le _ _))

/-- The divisor is looked at only where the frame holds it. -/
theorem divideTopTwo_alike (f : Word → Word → Word) :
    AnswersAlike lo (divideTopTwo f s) (divideTopTwo f (s.setSlots m)) := by
  have hcheck : ((s.setSlots m).hasDepth 2 && (s.setSlots m).operand 1 == 0) = (s.hasDepth 2 && s.operand 1 == 0) :=
    and_eq_and_of_imp fun hd => by rw [h.operand hlo hd]
  unfold divideTopTwo
  rw [hcheck]
  exact answersAlike_ite (fun _ => answersAlike_fail _ h) fun _ => replaceTopTwo_alike h hlo f

/-- The condition of a branch need agree only where the frame holds the values it is about. -/
theorem popAndJump_alike {n : Nat} {taken taken' : Bool} (hn : 1 ≤ n) (ht : s.hasDepth n = true → taken' = taken) :
    AnswersAlike lo (popAndJump n taken s) (popAndJump n taken' (s.setSlots m)) := by
  refine answersAlike_ite (fun hd => ?_) fun _ => answersAlike_fail _ h
  rw [ht hd, h.operand hlo hd le_rfl hn]
  cases taken <;> exact answersAlike_next rfl (h.mono le_rfl (Nat.sub_le _ _))

theorem loadValue_alike (n : Nat) : AnswersAlike lo (loadValue n s) (loadValue n (s.setSlots m)) := by
  refine answersAlike_ite (fun hd => ?_) fun _ => answersAlike_fail _ h
  rw [h.operand hlo hd]
  exact answersAlike_ite (fun _ => answersAlike_next rfl (h.write _ _)) fun _ => answersAlike_fail _ h

theorem storeValue_alike (n : Nat) : AnswersAlike lo (storeValue n s) (storeValue n (s.setSlots m)) := by
  refine answersAlike_ite (fun hd => ?_) fun _ => answersAlike_fail _ h
  rw [h.operand hlo hd, h.operand hlo hd]
  exact answersAlike_ite (fun _ => answersAlike_next rfl (h.mono le_rfl (Nat.sub_le _ _))) fun _ =>
    answersAlike_fail _ h

theorem execDup_alike : AnswersAlike lo (execDup s) (execDup (s.setSlots m)) := by
  refine answersAlike_ite (fun hd => ?_) fun _ => answersAlike_fail _ h
  rw [h.operand hlo hd]
  exact pushValue_alike h _

theorem execSwap_alike : AnswersAlike lo (execSwap s) (execSwap (s.setSlots m)) := by
  refine answersAlike_ite (fun hd => ?_) fun _ => answersAlike_fail _ h
  rw [h.operand hlo hd, h.operand hlo hd]
  exact answersAlike_next rfl ((h.write _ _).write _ _)

/-- CALL reads its count and its arguments, which the frame holds (R185, R186). -/
theorem execCall_alike (target : Operand) : AnswersAlike lo (execCall target s) (execCall target (s.setSlots m)) := by
  have hcount (hd : s.hasDepth 1 = true) : (s.setSlots m).callCount = s.callCount :=
    congrArg BitVec.toNat (h.operand hlo hd)
  have hcheck : ((s.setSlots m).hasDepth 1 && (s.setSlots m).hasDepth ((s.setSlots m).callCount + 1)) =
      (s.hasDepth 1 && s.hasDepth (s.callCount + 1)) :=
    and_eq_and_of_imp fun hd => by rw [hcount hd]; rfl
  unfold execCall
  rw [hcheck]
  refine answersAlike_ite (fun hd => ?_) fun _ => answersAlike_fail _ h
  obtain ⟨hone, hall⟩ := Bool.and_eq_true_iff.mp hd
  have hdepth := (s.hasDepth_iff _).mp hall
  rw [hcount hone]
  exact answersAlike_ite (fun _ => answersAlike_next rfl (h.callSlots (by omega))) fun _ => answersAlike_fail _ h

/-- Every instruction but RET reads no slot outside its frame: what it writes is the same, and so is every slot from
`lo` to the new `top`. -/
theorem exec_alike {i : Instr} (hret : i ≠ .ret) : AnswersAlike lo (exec i s) (exec i (s.setSlots m)) := by
  cases i
  case push | space => exact pushValue_alike h _
  case pop => exact execPop_alike h
  case dup => exact execDup_alike h hlo
  case swap => exact execSwap_alike h hlo
  case time => exact execTime_alike h
  case call target => exact execCall_alike h hlo target
  case ret => exact absurd rfl hret
  case hlt => exact execHlt_alike h
  case unassigned b => exact execUnassigned_alike h b
  case inc | dec | not =>
    simp only [exec_inc, exec_dec, exec_not]
    exact replaceTop_alike h hlo _
  case div | mod => exact divideTopTwo_alike h hlo _
  case load | load8 => exact loadValue_alike h hlo _
  case store | store8 => exact storeValue_alike h hlo _
  case jmp => exact popAndJump_alike h hlo (by decide) fun _ => rfl
  case jz | jnz | jn | jp =>
    exact popAndJump_alike h hlo (by decide) fun hd => by rw [h.operand hlo hd]
  case je | jne | jlt | jgt | jle | jge =>
    exact popAndJump_alike h hlo (by decide) fun hd => by rw [h.operand hlo hd, h.operand hlo hd]
  all_goals
    simp only [exec_add, exec_sub, exec_mul, exec_and, exec_or, exec_xor, exec_shl, exec_shr, exec_eq, exec_lt,
      exec_gt, exec_lte, exec_gte, State.setSlots_cfg]
    exact replaceTopTwo_alike h hlo _

end Operations

/-- RET reads the metadata of its frame and the top value, all of them below `top` (R38, R187). -/
theorem execRet_alike (h : SlotsAgree 0 s.top s.S m) (hbt : s.base ≤ s.top) :
    AnswersAlike 0 (execRet s) (execRet (s.setSlots m)) := by
  by_cases hbase : 3 ≤ s.base
  · have hmeta (k : Nat) (hk : 0 < k) : (s.setSlots m).slot (s.base - k) = s.slot (s.base - k) :=
      h _ (Nat.zero_le _) (by omega)
    have hcount : (s.setSlots m).frameCount = s.frameCount := congrArg BitVec.toNat (hmeta 3 (by decide))
    have hip : (s.setSlots m).returnIp = s.returnIp := hmeta 2 (by decide)
    have hsaved : (s.setSlots m).savedBase = s.savedBase := congrArg BitVec.toNat (hmeta 1 (by decide))
    have hunwound : (s.setSlots m).unwoundTop = s.unwoundTop := by
      simp only [State.unwoundTop, hcount, State.setSlots_base]
    have hcheck : (s.setSlots m).canReturn = s.canReturn := by
      unfold State.canReturn
      rw [hcount, hsaved]
      rfl
    unfold execRet
    rw [hcheck, hip, hsaved, hunwound]
    refine answersAlike_ite (fun hret => ?_) fun _ => answersAlike_fail _ h
    have hlt := unwoundTop_lt_base hret
    refine answersAlike_ite (fun hv => ?_) fun _ => answersAlike_next rfl (h.mono le_rfl (hlt.le.trans hbt))
    have htop : (s.setSlots m).operand 1 = s.operand 1 := h (s.top - 1) (Nat.zero_le _) (by omega)
    rw [htop]
    exact answersAlike_next rfl ((h.mono le_rfl (hlt.le.trans hbt)).push _)
  · have hcheck (x : State) (hx : x.base = s.base) : x.canReturn = false :=
      Bool.eq_false_iff.mpr fun hr => hbase (hx ▸ ((State.canReturn_iff x).mp hr).1)
    unfold execRet
    rw [hcheck s rfl, hcheck (s.setSlots m) rfl]
    exact answersAlike_fail _ h

/-- Fetch reads no slot, and no instruction reads a dead one (R33). -/
theorem step_alike (h : SlotsAgree 0 s.top s.S m) (hbt : s.base ≤ s.top) :
    AnswersAlike 0 (step s) (step (s.setSlots m)) := by
  have hfetch : (s.setSlots m).fetch = s.fetch := rfl
  refine answersAlike_ite (fun _ => ?_) fun _ => nofun
  rw [hfetch]
  cases s.fetch with
  | error k => exact answersAlike_fail k h
  | ok i =>
    by_cases hret : i = .ret
    · subst hret; exact execRet_alike h hbt
    · exact exec_alike h (Nat.zero_le _) hret

/-- A state with every register and all of memory as in `s` is `s` over its own slots. -/
theorem eq_setSlots {t : State} (hmem : t.mem = s.mem) (htop : t.top = s.top) (hbase : t.base = s.base)
    (hip : t.ip = s.ip) (hstatus : t.status = s.status) (hcfg : t.cfg = s.cfg) (hdraws : t.timeDraws = s.timeDraws) :
    t = s.setSlots t.S := by
  cases t
  cases hmem; cases htop; cases hbase; cases hip; cases hstatus; cases hcfg; cases hdraws
  rfl

theorem agreeOnFrame_iff {s t : State} :
    AgreeOnFrame s t ↔ ∃ m, t = s.setSlots m ∧ SlotsAgree s.base s.top s.S m := by
  constructor
  · rintro ⟨hmem, htop, hbase, hip, hstatus, hcfg, hdraws, hslots⟩
    exact ⟨t.S, eq_setSlots hmem htop hbase hip hstatus hcfg hdraws, hslots⟩
  · rintro ⟨m, rfl, h⟩
    exact ⟨rfl, rfl, rfl, rfl, rfl, rfl, rfl, h⟩

theorem agreeBelowTop_iff {s t : State} :
    AgreeBelowTop s t ↔ ∃ m, t = s.setSlots m ∧ SlotsAgree 0 s.top s.S m := by
  constructor
  · rintro ⟨hmem, htop, hbase, hip, hstatus, hcfg, hdraws, hslots⟩
    exact ⟨t.S, eq_setSlots hmem htop hbase hip hstatus hcfg hdraws, fun k _ => hslots k⟩
  · rintro ⟨m, rfl, h⟩
    exact ⟨rfl, rfl, rfl, rfl, rfl, rfl, rfl, fun k => h k (Nat.zero_le _)⟩

/-- Apart from RET, no instruction lowers `base` (R28). -/
theorem base_le_of_exec {i : Instr} {s t : State} (hret : i ≠ .ret) (hbt : s.base ≤ s.top)
    (hx : exec i s = .next t) : s.base ≤ t.base := by
  by_cases hb : t.base = s.base
  · exact hb.ge
  · obtain hi | ⟨target, rfl⟩ := onlyCallAndRetWriteBase i s t hx hb
    · exact absurd hi hret
    · rcases execCall_cases hx with ⟨-, -, rfl⟩ | ⟨-, -, rfl⟩ | ⟨-, rfl⟩
      · exact hbt.trans (Nat.le_add_right _ _)
      · exact le_rfl
      · exact le_rfl

/-- Settles O47: the two states are one state over two slot arrays, on which a step answers alike. -/
theorem deadSlotsAreNeverRead : Obligations.DeadSlotsAreNeverRead := by
  intro s t s' hbt hst hs
  obtain ⟨m, rfl, h⟩ := agreeBelowTop_iff.mp hst
  obtain ⟨m', hs', h'⟩ := step_alike h hbt s' hs
  exact ⟨_, hs', agreeBelowTop_iff.mpr ⟨m', rfl, h'⟩⟩

/-- Settles O48: the region from the old `base` on agrees, and the new frame lies in it. -/
theorem onlyRetReadsBelowTheFrame : Obligations.OnlyRetReadsBelowTheFrame := by
  intro i s t s' hret hbt hst hx
  obtain ⟨m, rfl, h⟩ := agreeOnFrame_iff.mp hst
  obtain ⟨m', hx', h'⟩ := exec_alike h le_rfl hret s' hx
  exact ⟨_, hx', agreeOnFrame_iff.mpr ⟨m', rfl, h'.mono (base_le_of_exec hret hbt hx) le_rfl⟩⟩

end Sys2Proof.Machine

/-! ## Bytes of a word and of memory, in both byte orders -/

namespace Sys2Proof.Machine

/-- Digit `k` of a number in base 256. -/
theorem getElem_toBytesLE {n k : Nat} (v : Nat) (hk : k < (toBytesLE n v).length) :
    (toBytesLE n v)[k] = BitVec.ofNat 8 (v / 256 ^ k) := by
  induction n generalizing v k with
  | zero => simp at hk
  | succ n ih =>
    cases k with
    | zero => simp [toBytesLE]
    | succ k => simp [toBytesLE, ih, Nat.div_div_eq_div_mul, Nat.pow_succ']

/-- A byte of a word is its base-256 digit. -/
theorem extractLsb'_eq_digit (v : Word) (k : Nat) : v.extractLsb' (8 * k) 8 = BitVec.ofNat 8 (v.toNat / 256 ^ k) := by
  rw [BitVec.extractLsb', Nat.shiftRight_eq_div_pow, Nat.pow_mul]

/-- Byte `k` of the program image of a word, counted from the most significant one (R54). -/
theorem getElem_bytesBE (x : Word) {k : Nat} (hk : k < (bytesBE x).length) :
    (bytesBE x)[k] = x.extractLsb' (56 - 8 * k) 8 := by
  have hk8 : k < 8 := by simpa using hk
  simp only [bytesBE, List.getElem_reverse, getElem_toBytesLE, toBytesLE_length]
  rw [← extractLsb'_eq_digit, show 8 * (8 - 1 - k) = 56 - 8 * k by omega]

@[simp] theorem Memory.getElem_readBytes (m : Memory) (a : Nat) {n k : Nat} (hk : k < (m.readBytes a n).length) :
    (m.readBytes a n)[k] = Cells.read m (a + k) := by
  induction n generalizing a k with
  | zero => simp at hk
  | succ n ih =>
    cases k with
    | zero => simp [Memory.readBytes]
    | succ k => simp [Memory.readBytes, ih, Nat.add_assoc, Nat.add_comm 1]

/-- The sum of R57: the byte read at offset `k` weighs `2^(8k)`. -/
theorem ofBytesLE_readBytes (m : Memory) (a n : Nat) :
    ofBytesLE (m.readBytes a n) = ∑ k ∈ Finset.range n, (Cells.read m (a + k)).toNat * 2 ^ (8 * k) := by
  induction n generalizing a with
  | zero => rfl
  | succ n ih =>
    rw [Memory.readBytes, ofBytesLE, ih, Finset.sum_range_succ', Finset.mul_sum, Nat.add_comm]
    congr 1
    · refine Finset.sum_congr rfl fun k _ => ?_
      rw [show a + 1 + k = a + (k + 1) by omega, show 8 * (k + 1) = 8 + 8 * k by omega, Nat.pow_add]
      ring
    · simp

theorem ofBytesLE_concat (bs : List Byte) (b : Byte) :
    ofBytesLE (bs ++ [b]) = ofBytesLE bs + b.toNat * 2 ^ (8 * bs.length) := by
  induction bs with
  | nil => simp [ofBytesLE]
  | cons c bs ih =>
    rw [List.cons_append, ofBytesLE, ofBytesLE, ih, List.length_cons, Nat.mul_succ, Nat.pow_add]
    ring

/-- The sum of R55: the byte read at offset `k` weighs `2^(8(n-1-k))`. -/
theorem ofBytesLE_reverse_readBytes (m : Memory) (a n : Nat) :
    ofBytesLE (m.readBytes a n).reverse =
      ∑ k ∈ Finset.range n, (Cells.read m (a + k)).toNat * 2 ^ (8 * (n - 1 - k)) := by
  induction n generalizing a with
  | zero => rfl
  | succ n ih =>
    rw [Memory.readBytes, List.reverse_cons, ofBytesLE_concat, ih, Finset.sum_range_succ', List.length_reverse,
      Memory.readBytes_length]
    congr 1
    refine Finset.sum_congr rfl fun k _ => ?_
    rw [show a + 1 + k = a + (k + 1) by omega, show n + 1 - 1 - (k + 1) = n - 1 - k by omega]

/-- At most eight bytes fit in a word, so reading them loses nothing. -/
theorem toNat_ofNat_ofBytesLE {bs : List Byte} (h : bs.length ≤ 8) :
    (BitVec.ofNat 64 (ofBytesLE bs)).toNat = ofBytesLE bs := by
  rw [BitVec.toNat_ofNat]
  exact Nat.mod_eq_of_lt ((ofBytesLE_lt bs).trans_le (Nat.pow_le_pow_right (n := 256) (by decide) h))

/-- Byte `k` of the word read is the byte at offset `k` (R57). -/
theorem extractLsb'_memRead (m : Memory) (a : Nat) {n k : Nat} (hn : n ≤ 8) (hk : k < n) :
    (memRead m a n).extractLsb' (8 * k) 8 = Cells.read m (a + k) := by
  have hlen : (m.readBytes a n).length = n := m.readBytes_length a n
  have hdigits : toBytesLE n (ofBytesLE (m.readBytes a n)) = m.readBytes a n := by
    simpa only [hlen] using toBytesLE_ofBytesLE (m.readBytes a n)
  rw [extractLsb'_eq_digit, memRead, toNat_ofNat_ofBytesLE (by omega), ← getElem_toBytesLE (n := n) _ (by simpa)]
  simp only [hdigits, Memory.getElem_readBytes]

/-- A single byte is zero-extended (R57). -/
theorem memRead_one (m : Memory) (a : Nat) : memRead m a 1 = (Cells.read m a).setWidth 64 := by
  simp [memRead, Memory.readBytes, ofBytesLE]

/-- MemWrite puts byte `k` of the value at offset `k` (R57). -/
theorem read_memWrite_at (m : Memory) (a : Nat) {n k : Nat} (v : Word) (hk : k < n) :
    Cells.read (memWrite m a n v) (a + k) = v.extractLsb' (8 * k) 8 := by
  rw [memWrite, Memory.read_writeBytes_at _ _ _ _ (by simpa), getElem_toBytesLE, extractLsb'_eq_digit]

/-- Settles O10, by the digits of the value written and the sum of the bytes read. -/
theorem dataAccessIsLittleEndian : Obligations.DataAccessIsLittleEndian := by
  refine ⟨fun m addr => ?_, fun m addr v => ⟨?_, ?_⟩, memRead_one, fun m addr v => ⟨?_, fun a ha => ?_⟩⟩
  · rw [memRead, toNat_ofNat_ofBytesLE (m.readBytes_length addr 8).le, ofBytesLE_readBytes]
  · exact fun k hk => read_memWrite_at m addr v hk
  · exact fun a ha => read_memWrite_ne m addr 8 v ha
  · exact read_memWrite_at m addr v Nat.one_pos
  · exact read_memWrite_ne m addr 1 v (by omega)

/-! ## The loaded program -/

theorem fetchRead_congr {m m' : Memory} (addr : Nat)
    (h : ∀ a, addr ≤ a → a < addr + 8 → Cells.read m a = Cells.read m' a) : fetchRead m addr = fetchRead m' addr := by
  rw [fetchRead, fetchRead, Memory.readBytes_congr addr 8 h]

/-- The loader writes no byte below or above the image (R241 step 1). -/
theorem read_loadImage_ne {first : Nat} (ws : List Word) (m : Memory) {a : Nat}
    (h : a < 8 * first ∨ 8 * (first + ws.length) ≤ a) : Cells.read (loadImage first ws m) a = Cells.read m a := by
  induction ws generalizing first m with
  | nil => rfl
  | cons w ws ih =>
    rw [List.length_cons] at h
    rw [loadImage, ih _ (by omega), storeProgramWord, Memory.read_writeBytes_ne _ _ _ (by rw [bytesBE_length]; omega)]

/-- The eight bytes of word `i` in the image: the later words are written above them (R54). -/
theorem readBytes_loadImage {first i : Nat} (ws : List Word) (m : Memory) (hi : i < ws.length) :
    (loadImage first ws m).readBytes (8 * (first + i)) 8 = bytesBE ws[i] := by
  induction ws generalizing first m i with
  | nil => simp at hi
  | cons w ws ih =>
    rw [loadImage]
    cases i with
    | zero =>
      have hkept : ∀ a, 8 * first ≤ a → a < 8 * first + 8 →
          Cells.read (loadImage (first + 1) ws (storeProgramWord m (8 * first) w)) a =
            Cells.read (storeProgramWord m (8 * first) w) a :=
        fun a _ ha => read_loadImage_ne _ _ (.inl (by omega))
      rw [Nat.add_zero first, Memory.readBytes_congr _ _ hkept, storeProgramWord, List.getElem_cons_zero]
      simpa only [bytesBE_length] using Memory.readBytes_writeBytes m (8 * first) (bytesBE w)
    | succ i =>
      rw [show first + (i + 1) = first + 1 + i by omega]
      exact ih _ (Nat.lt_of_succ_lt_succ hi)

/-- Settles O8: byte `k` of the image of word `i` is byte `k` of its big-endian bytes. -/
theorem programImageIsBigEndian : Obligations.ProgramImageIsBigEndian := by
  refine fun ws m => ⟨fun i hi k hk => ?_, fun a ha => read_loadImage_ne ws m (.inr (by omega))⟩
  have himage := readBytes_loadImage (first := 0) ws m hi
  rw [Nat.zero_add] at himage
  rw [← Memory.getElem_readBytes (n := 8) _ _ (by simpa), List.getElem_of_eq himage, getElem_bytesBE]

/-- Fetch gives back every loaded program word (R55). -/
theorem fetchRead_loadImage (ws : List Word) (m : Memory) {i : Nat} (hi : i < ws.length) :
    fetchRead (loadImage 0 ws m) (8 * i) = ws[i] := by
  have himage := readBytes_loadImage (first := 0) ws m hi
  rw [Nat.zero_add] at himage
  rw [fetchRead, himage, wordBE_bytesBE]

/-- Settles O9: the big-endian sum, and the image read back. -/
theorem fetchReadsBackTheLoadedWord : Obligations.FetchReadsBackTheLoadedWord := by
  refine ⟨fun m addr => ?_, fun ws m i hi => fetchRead_loadImage ws m hi⟩
  rw [fetchRead, wordBE, toNat_ofNat_ofBytesLE (by simp), ofBytesLE_reverse_readBytes]

end Sys2Proof.Machine

/-! ## Memory along a run -/

namespace Sys2Proof.Machine

variable {s t u : State}

/-- From `s` to `t` the configuration and every byte of ROM and Code are kept (R53). -/
def SameRomAndCode (s t : State) : Prop := t.cfg = s.cfg ∧ ∀ a, a < s.cfg.dataBase → t.byte a = s.byte a

theorem SameRomAndCode.trans (hst : SameRomAndCode s t) (htu : SameRomAndCode t u) : SameRomAndCode s u := by
  obtain ⟨hcfg, hbytes⟩ := hst
  obtain ⟨hcfg', hbytes'⟩ := htu
  exact ⟨hcfg'.trans hcfg, fun a ha => (hbytes' a (hcfg ▸ ha)).trans (hbytes a ha)⟩

/-- Only a store writes memory, and it writes at `dataBase` and above (R52, R53). -/
theorem sameRomAndCode_of_exec {i : Instr} (h : exec i s = .next t) : SameRomAndCode s t := by
  have kept {t : State} (hcfg : t.cfg = s.cfg) (hmem : t.mem = s.mem) : SameRomAndCode s t :=
    ⟨hcfg, fun a _ => congrArg (Cells.read · a) hmem⟩
  exact exec_cases (P := SameRomAndCode s) h
    (fault := fun _ => kept rfl rfl) (push := fun _ _ => kept rfl rfl) (replaceOne := fun _ _ => kept rfl rfl)
    (replaceTwo := fun _ _ => kept rfl rfl) (popOne := fun _ => kept rfl rfl) (swapTwo := fun _ => kept rfl rfl)
    (jump := fun _ _ _ _ => kept rfl rfl)
    (store := fun n _ _ => ⟨rfl, fun a ha => read_memWrite_ne s.mem _ n _ (.inl (Nat.lt_add_right _ ha))⟩)
    (time := fun _ => kept rfl rfl) (call := fun _ _ _ _ => kept rfl rfl) (returnValue := fun _ _ _ => kept rfl rfl)
    (returnNothing := fun _ _ _ => kept rfl rfl) (halt := fun _ => kept rfl rfl)
    (unknown := fun _ _ _ => kept rfl rfl)

theorem sameRomAndCode_of_step (h : Steps s t) : SameRomAndCode s t := by
  obtain ⟨-, ⟨-, hx⟩ | ⟨-, rfl⟩⟩ := step_cases h
  · exact sameRomAndCode_of_exec hx
  · exact ⟨rfl, fun _ _ => rfl⟩

/-- Settles O49, by induction on the run. -/
theorem noRunChangesRomOrCode : Obligations.NoRunChangesRomOrCode := by
  intro s t h
  induction h with
  | here => exact ⟨rfl, fun _ _ => rfl⟩
  | step t u _ last ih => exact SameRomAndCode.trans ih (sameRomAndCode_of_step last)

/-- Settles O50: the words of a program that fits lie in ROM, which the run keeps. -/
theorem everyRunFetchesTheLoadedProgram : Obligations.EveryRunFetchesTheLoadedProgram := by
  intro vm t hfit hrun i hi
  obtain ⟨-, hbytes⟩ := noRunChangesRomOrCode _ t hrun
  have hrom : 8 * i + 8 ≤ vm.launchState.cfg.dataBase := by
    have hword : i + 1 ≤ vm.cfg.romSize / 8 := hi.trans_le hfit
    have hbase : vm.launchState.cfg.dataBase = vm.cfg.romSize + vm.cfg.codeSize := rfl
    omega
  calc fetchRead t.mem (8 * i)
      = fetchRead vm.launchState.mem (8 * i) := fetchRead_congr _ fun a _ ha => hbytes a (by omega)
    _ = vm.program[i] := fetchRead_loadImage vm.program vm.mem hi

/-! ## A store and a later load -/

/-- The state after a store that passed its checks: its memory and configuration. -/
theorem mem_cfg_of_storeValue {i : Instr} {n : Nat} (he : exec i s = storeValue n s) (hd : s.base + 2 ≤ s.top)
    (hm : s.cfg.dataBase + (s.slot (s.top - 1)).toNat + n ≤ s.cfg.memSize) (h : exec i s = .next t) :
    t.mem = memWrite s.mem (s.cfg.dataBase + (s.slot (s.top - 1)).toNat) n (s.slot (s.top - 2)) ∧ t.cfg = s.cfg := by
  rw [exec_of_storeValue he hd hm] at h
  cases h
  exact ⟨rfl, rfl⟩

/-- Settles O11: the byte loaded is byte `k` of the word written. -/
theorem storeThenLoad8ReadsItsByte : Obligations.StoreThenLoad8ReadsItsByte := by
  intro s t u k hd hm hx humem hucfg hud hk haddr
  obtain ⟨hmem, hcfg⟩ := mem_cfg_of_storeValue (exec_store s) hd hm hx
  have hcfg' : u.cfg = s.cfg := hucfg.trans hcfg
  have hload := replacesBy_of_loadValue (exec_load8 u) hud (by rw [hcfg', haddr]; omega)
  rwa [memRead_one, humem, hmem, hcfg', haddr, ← Nat.add_assoc, read_memWrite_at _ _ _ hk] at hload

/-- Settles O12: each byte of the word loaded is the byte in memory at its offset, and the store wrote one of them. -/
theorem store8ThenLoadReplacesOneByte : Obligations.Store8ThenLoadReplacesOneByte := by
  intro s t u k hd hm hx humem hucfg hud hk haddr hfit
  obtain ⟨hmem, hcfg⟩ := mem_cfg_of_storeValue (exec_store8 s) hd hm hx
  have hcfg' : u.cfg = s.cfg := hucfg.trans hcfg
  refine ⟨_, replacesBy_of_loadValue (exec_load u) hud (by rwa [hcfg']), fun j hj => ?_⟩
  rw [extractLsb'_memRead _ _ le_rfl hj, humem, hmem, hcfg', haddr, ← Nat.add_assoc]
  split
  · next hjk =>
    subst hjk
    exact read_memWrite_at _ _ _ Nat.one_pos
  · exact read_memWrite_ne _ _ _ _ (by omega)

/-! ## Fetch outside ROM and Code -/

/-- A step whose fetch is out of range raises the fetch fault (R56, R92). -/
theorem step_of_unfetchable (hr : s.status = .running) (hf : s.cfg.dataBase < 8 * s.ip.toNat + 8) :
    step s = fail .fetchOutOfRange s := by
  have hfetch : s.fetch = .error .fetchOutOfRange :=
    if_neg fun h => Nat.not_le.mpr hf (s.fetchable_iff.mp h)
  rw [step, if_pos (s.isRunning_iff.mpr hr), hfetch]

/-- Settles O38: `dataBase` is the limit of the fetch check. -/
theorem fetchOutsideRomAndCodeFaults : Obligations.FetchOutsideRomAndCodeFaults :=
  fun s hr hf => (step_of_unfetchable hr hf).trans (fail_eq s _)

end Sys2Proof.Machine

/-! ## The field codec and the decoder of a word -/

namespace Sys2Proof

@[simp] theorem toNat_zextOperand (p : Operand) : (zextOperand p).toNat = p.toNat :=
  BitVec.toNat_setWidth_of_le (by decide)

@[simp] theorem setWidth_zextOperand (p : Operand) : (zextOperand p).setWidth 56 = p :=
  BitVec.setWidth_setWidth_of_le p (by decide)

@[simp] theorem zextOperand_zero : zextOperand 0 = 0 := rfl

theorem toNat_splitWord_opcode (w : Word) : (splitWord w).opcode.toNat = w.toNat / 2 ^ 56 := by
  rw [splitWord, BitVec.extractLsb'_toNat, Nat.shiftRight_eq_div_pow]
  exact Nat.mod_eq_of_lt (by omega)

theorem toNat_splitWord_operand (w : Word) : (splitWord w).operand.toNat = w.toNat % 2 ^ 56 := by
  rw [splitWord, BitVec.extractLsb'_toNat, Nat.shiftRight_zero]

/-- The formula of R73. -/
theorem toNat_packFields (op : Byte) (v : Word) :
    (packFields op v).toNat = op.toNat * 2 ^ 56 + v.toNat % 2 ^ 56 := by
  rw [packFields, BitVec.toNat_append, BitVec.toNat_setWidth, Nat.mul_comm,
    Nat.two_pow_add_eq_or_of_lt (Nat.mod_lt _ (by decide)), Nat.shiftLeft_eq, Nat.mul_comm]

theorem splitWord_packFields_operand (op : Byte) (v : Word) : (splitWord (packFields op v)).operand = v.setWidth 56 := by
  apply BitVec.eq_of_toNat_eq
  rw [toNat_splitWord_operand, toNat_packFields, BitVec.toNat_setWidth]
  omega

theorem packFields_splitWord (w : Word) : packFields (splitWord w).opcode (zextOperand (splitWord w).operand) = w := by
  apply BitVec.eq_of_toNat_eq
  rw [toNat_packFields, toNat_splitWord_opcode, toNat_zextOperand, toNat_splitWord_operand, Nat.mod_mod]
  exact Nat.div_add_mod' _ _

/-- Settles O1, from the four formulas on `toNat`. -/
theorem fieldCodecFormulasAndInverse : Obligations.FieldCodecFormulasAndInverse := by
  refine ⟨fun w => ⟨toNat_splitWord_opcode w, ?_⟩, toNat_packFields,
    fun op v => ⟨splitWord_packFields_opcode op v, ?_⟩, packFields_splitWord⟩
  · rw [toNat_zextOperand, toNat_splitWord_operand]
  · rw [toNat_zextOperand, splitWord_packFields_operand, BitVec.toNat_setWidth]

/-! The instruction of a mnemonic: its opcode byte, and its operand for PUSH and CALL (R74). -/

@[simp] theorem Mnemonic.wf_toInstr (o : OpcodeMap) (m : Mnemonic) (p : Operand) : (m.toInstr p).wf o = true := by
  cases m <;> rfl

@[simp] theorem Mnemonic.opcodeByte_toInstr (o : OpcodeMap) (m : Mnemonic) (p : Operand) :
    (m.toInstr p).opcodeByte o = o.byteOf m := by
  cases m <;> rfl

theorem Mnemonic.operand_toInstr (m : Mnemonic) (p : Operand) :
    (m.toInstr p).operand = if m = .push ∨ m = .call then p else 0 := by
  cases m <;> rfl

theorem Mnemonic.toInstr_congr {m : Mnemonic} (hpush : m ≠ .push) (hcall : m ≠ .call) (p q : Operand) :
    m.toInstr p = m.toInstr q := by
  cases m
  case push => exact absurd rfl hpush
  case call => exact absurd rfl hcall
  all_goals rfl

theorem Instr.wf_unassigned_iff (o : OpcodeMap) (b : Byte) :
    (Instr.unassigned b).wf o = true ↔ ∀ m, o.byteOf m ≠ b := by
  simp only [Instr.wf, List.all_eq_true, bne_iff_ne]
  exact ⟨fun h m => h m m.mem_all, fun h m _ => h m⟩

/-- The handler array has every mnemonic at its opcode byte (R95). -/
theorem handler_byteOf {o : OpcodeMap} (ho : o.Injective) (m : Mnemonic) : handler o (o.byteOf m) = some m := by
  cases h : handler o (o.byteOf m) with
  | none => exact absurd rfl ((handler_eq_none_iff o _).mp h m)
  | some n => rw [ho n m (byteOf_of_handler h)]

/-- A decoded word is a mnemonic's instruction, or its opcode byte has no mnemonic (R72, R77). -/
theorem decodeWord_cases (o : OpcodeMap) (w : Word) :
    (∃ m, o.byteOf m = (splitWord w).opcode ∧ decodeWord o w = m.toInstr (splitWord w).operand) ∨
      (∀ m, o.byteOf m ≠ (splitWord w).opcode) ∧ decodeWord o w = .unassigned (splitWord w).opcode := by
  unfold decodeWord
  split
  · next m h => exact .inl ⟨m, byteOf_of_handler h, rfl⟩
  · next h => exact .inr ⟨(handler_eq_none_iff o _).mp h, rfl⟩

/-- Settles O3, for an assigned and for an unassigned opcode byte. -/
theorem encodeOfDecodeKeepsWhatIsRead : Obligations.EncodeOfDecodeKeepsWhatIsRead := by
  intro o w ho
  rcases decodeWord_cases o w with ⟨m, hm, hd⟩ | ⟨hnone, hd⟩ <;> rw [hd]
  · have hread (n : Mnemonic) : (splitWord w).opcode = o.byteOf n ↔ m = n := by
      rw [← hm]
      exact ⟨ho m n, congrArg o.byteOf⟩
    refine ⟨m.wf_toInstr o _, ?_⟩
    rw [encode, m.opcodeByte_toInstr, m.operand_toInstr, hm, apply_ite zextOperand]
    simp only [hread, zextOperand_zero]
  · refine ⟨(Instr.wf_unassigned_iff o _).mpr hnone, ?_⟩
    rw [if_neg fun h => h.elim (hnone _ ·.symm) (hnone _ ·.symm)]
    rfl

/-- The decoder on a packed word: its opcode byte selects the mnemonic, which is given its operand field. -/
theorem decodeWord_packFields (o : OpcodeMap) (b : Byte) (p : Operand) :
    decodeWord o (packFields b (zextOperand p)) = ((handler o b).map (·.toInstr p)).getD (.unassigned b) := by
  rw [decodeWord, splitWord_packFields_opcode, splitWord_packFields_operand, setWidth_zextOperand]
  cases handler o b <;> rfl

theorem decodeWord_packFields_byteOf {o : OpcodeMap} (ho : o.Injective) (m : Mnemonic) (p : Operand) :
    decodeWord o (packFields (o.byteOf m) (zextOperand p)) = m.toInstr p := by
  rw [decodeWord_packFields, handler_byteOf ho]
  rfl

/-- Settles O4: no mnemonic but PUSH and CALL reads the operand field. -/
theorem onlyPushAndCallDecodeTheOperand : Obligations.OnlyPushAndCallDecodeTheOperand := by
  refine fun o b p q ho => ⟨fun hpush hcall => ?_, decodeWord_packFields_byteOf ho .push p,
    decodeWord_packFields_byteOf ho .call p⟩
  rw [decodeWord_packFields, decodeWord_packFields]
  cases h : handler o b with
  | none => rfl
  | some m =>
    have hb : o.byteOf m = b := byteOf_of_handler h
    have hm (n : Mnemonic) (hn : b ≠ o.byteOf n) : m ≠ n := fun e => hn (e ▸ hb.symm)
    exact Mnemonic.toInstr_congr (hm _ hpush) (hm _ hcall) p q

end Sys2Proof

/-! ## The decoded instruction of a word, and the handler array -/

namespace Sys2Proof

@[simp] theorem Mnemonic.mnemonic_toInstr (m : Mnemonic) (p : Operand) : (m.toInstr p).mnemonic = some m := by
  cases m <;> rfl

/-- Only a word whose opcode byte has no handler decodes to the `(unassigned)` row (R77). -/
theorem handler_of_decodeWord_unassigned {o : OpcodeMap} {w : Word} {b : Byte} (h : decodeWord o w = .unassigned b) :
    handler o (splitWord w).opcode = none := by
  rcases decodeWord_cases o w with ⟨m, -, hm⟩ | ⟨hnone, -⟩
  · have hmnemonic : some m = none := by rw [← m.mnemonic_toInstr (splitWord w).operand, ← hm, h]; rfl
    exact nomatch hmnemonic
  · exact (handler_eq_none_iff o _).mpr hnone

theorem handler_eq_some_iff {o : OpcodeMap} (ho : o.Injective) (b : Byte) (m : Mnemonic) :
    handler o b = some m ↔ o.byteOf m = b :=
  ⟨byteOf_of_handler, fun h => h ▸ handler_byteOf ho m⟩

end Sys2Proof

/-! ## The instruction cycle -/

namespace Sys2Proof.Machine

variable {s t : State} {i : Instr}

/-- Settles O5: the two readings of the handler array, and a step keeps the configuration that holds OPCODE_OF. -/
theorem handlerArrayFollowsOpcodeOf : Obligations.HandlerArrayFollowsOpcodeOf := by
  refine ⟨fun _ b m ho => handler_eq_some_iff ho b m, handler_eq_none_iff, fun s t hs b => ?_⟩
  obtain ⟨hcfg, -⟩ := sameRomAndCode_of_step hs
  rw [hcfg]

/-- A step whose fetch is in range executes the instruction that the fetched word decodes to (R92). -/
theorem step_of_fetchable (hr : s.status = .running) (hf : 8 * s.ip.toNat + 8 ≤ s.cfg.dataBase) :
    step s = exec (decodeWord s.cfg.opcodes s.fetchedWord) s := by
  have hfetch : s.fetch = .ok (decodeWord s.cfg.opcodes s.fetchedWord) := if_pos (s.fetchable_iff.mpr hf)
  rw [step, if_pos (s.isRunning_iff.mpr hr), hfetch]

/-- The byte decoder on the 8 bytes that fetch reads is the word decoder on the fetched word (R55, R71). -/
theorem decodeBytes_readBytes (o : OpcodeMap) (m : Memory) (a : Nat) :
    decodeBytes o (m.readBytes a 8) = .ok (decodeWord o (fetchRead m a), []) := by
  have hlen : (m.readBytes a 8).length = 8 := m.readBytes_length a 8
  rw [decodeBytes, if_neg hlen.not_lt, List.take_of_length_le hlen.le, List.drop_of_length_le hlen.le, fetchRead]

/-- Settles O37: the decoded instruction is the one that the step executes. -/
theorem stepRunsTheDecodedInstruction : Obligations.StepRunsTheDecodedInstruction := by
  intro s i hr hf _ hdecode
  rw [decodeBytes_readBytes] at hdecode
  cases hdecode
  exact step_of_fetchable hr hf

/-- Settles O40: a state that steps is Running. -/
theorem stoppedCoreHasNoStep : Obligations.StoppedCoreHasNoStep := by
  intro s hstopped t hs
  obtain ⟨hr, -⟩ := step_cases hs
  exact hstopped hr

/-! ## Progress: every instruction answers a next state -/

/-- The outcome is a next state: neither a stop of the model nor a refusal. -/
def AnswersNext (o : Outcome) : Prop := ∃ t, o = .next t

theorem answersNext_next (t : State) : AnswersNext (.next t) := ⟨t, rfl⟩

/-- A fault of the spec is a next state (R214). -/
theorem answersNext_fail (k : FaultKind) (s : State) : AnswersNext (fail k s) := answersNext_next _

theorem answersNext_ite {c : Prop} [Decidable c] {p q : Outcome} (hp : AnswersNext p) (hq : AnswersNext q) :
    AnswersNext (if c then p else q) := by
  split
  · exact hp
  · exact hq

theorem pushValue_answersNext (v : Word) (s : State) : AnswersNext (pushValue v s) :=
  answersNext_ite (answersNext_next _) (answersNext_fail _ s)

theorem replaceTop_answersNext (f : Word → Word) (s : State) : AnswersNext (replaceTop f s) :=
  answersNext_ite (answersNext_next _) (answersNext_fail _ s)

theorem replaceTopTwo_answersNext (f : Word → Word → Word) (s : State) : AnswersNext (replaceTopTwo f s) :=
  answersNext_ite (answersNext_next _) (answersNext_fail _ s)

theorem divideTopTwo_answersNext (f : Word → Word → Word) (s : State) : AnswersNext (divideTopTwo f s) :=
  answersNext_ite (answersNext_fail _ s) (replaceTopTwo_answersNext f s)

theorem popAndJump_answersNext (n : Nat) (taken : Bool) (s : State) : AnswersNext (popAndJump n taken s) :=
  answersNext_ite (answersNext_next _) (answersNext_fail _ s)

theorem loadValue_answersNext (n : Nat) (s : State) : AnswersNext (loadValue n s) :=
  answersNext_ite (answersNext_ite (answersNext_next _) (answersNext_fail _ s)) (answersNext_fail _ s)

theorem storeValue_answersNext (n : Nat) (s : State) : AnswersNext (storeValue n s) :=
  answersNext_ite (answersNext_ite (answersNext_next _) (answersNext_fail _ s)) (answersNext_fail _ s)

theorem execUnassigned_answersNext (opcode : Byte) (s : State) : AnswersNext (execUnassigned opcode s) := by
  unfold execUnassigned
  split
  · exact answersNext_next _
  · exact answersNext_fail _ s

/-- No arm of the dispatcher stops or refuses. -/
theorem exec_answersNext (i : Instr) (s : State) : AnswersNext (exec i s) := by
  cases i
  case push | space => exact pushValue_answersNext _ s
  case pop | swap => exact answersNext_ite (answersNext_next _) (answersNext_fail _ s)
  case dup => exact answersNext_ite (pushValue_answersNext _ s) (answersNext_fail _ s)
  case time => exact answersNext_ite (pushValue_answersNext _ _) (answersNext_fail _ s)
  case call =>
    exact answersNext_ite (answersNext_ite (answersNext_next _) (answersNext_fail _ s)) (answersNext_fail _ s)
  case ret =>
    exact answersNext_ite (answersNext_ite (answersNext_next _) (answersNext_next _)) (answersNext_fail _ s)
  case hlt => exact answersNext_next _
  case unassigned b => exact execUnassigned_answersNext b s
  case inc | dec | not =>
    simp only [exec_inc, exec_dec, exec_not]
    exact replaceTop_answersNext _ s
  case div | mod => exact divideTopTwo_answersNext _ s
  case load | load8 => exact loadValue_answersNext _ s
  case store | store8 => exact storeValue_answersNext _ s
  case jmp | jz | jnz | jn | jp | je | jne | jlt | jgt | jle | jge => exact popAndJump_answersNext _ _ s
  all_goals
    simp only [exec_add, exec_sub, exec_mul, exec_and, exec_or, exec_xor, exec_shl, exec_shr, exec_eq, exec_lt,
      exec_gt, exec_lte, exec_gte]
    exact replaceTopTwo_answersNext _ s

/-- A Running core has a next state: it executes an instruction or raises the fetch fault (R92). -/
theorem step_answersNext (hr : s.status = .running) : AnswersNext (step s) := by
  by_cases hf : 8 * s.ip.toNat + 8 ≤ s.cfg.dataBase
  · rw [step_of_fetchable hr hf]
    exact exec_answersNext _ s
  · rw [step_of_unfetchable hr (Nat.lt_of_not_le hf)]
    exact answersNext_fail _ s

/-- The four ways that `i` may leave the status, each stop with its cause (R90, R200, R201, R214). -/
def LeavesStatus (i : Instr) (s t : State) : Prop :=
  t.status = .running ∨ (t.status = .halted .hlt ∧ i = .hlt) ∨
    (t.status = .halted .unknownOpcode ∧ s.cfg.unknownPolicy = .halt ∧ ∃ b, i = .unassigned b) ∨
    ∃ k, t.status = .faulted k s.ip

theorem leavesStatus_of_exec (hr : s.status = .running) (hx : exec i s = .next t) : LeavesStatus i s t :=
  exec_cases (P := LeavesStatus i s) hx
    (fault := fun k => .inr (.inr (.inr ⟨k, rfl⟩))) (push := fun _ _ => .inl hr) (replaceOne := fun _ _ => .inl hr)
    (replaceTwo := fun _ _ => .inl hr) (popOne := fun _ => .inl hr) (swapTwo := fun _ => .inl hr)
    (jump := fun _ _ _ _ => .inl hr) (store := fun _ _ _ => .inl hr) (time := fun _ => .inl hr)
    (call := fun _ _ _ _ => .inl hr) (returnValue := fun _ _ _ => .inl hr) (returnNothing := fun _ _ _ => .inl hr)
    (halt := fun hi => .inr (.inl ⟨rfl, hi⟩)) (unknown := fun b hi hp => .inr (.inr (.inl ⟨rfl, hp, b, hi⟩)))

/-- Settles O41: a next state exists, and the cause of its status is read off the instruction that the fetched word
decodes to. -/
theorem runningCoreStepsInFourWays : Obligations.RunningCoreStepsInFourWays := by
  intro s hr
  obtain ⟨t, hs⟩ := step_answersNext hr
  refine ⟨t, hs, ?_⟩
  obtain ⟨-, ⟨-, hx⟩ | ⟨-, rfl⟩⟩ := step_cases hs
  · obtain hrun | hhlt | ⟨hunknown, hpolicy, b, hi⟩ | hfault := leavesStatus_of_exec hr hx
    · exact .inl hrun
    · exact .inr (.inl hhlt)
    · exact .inr (.inr (.inl ⟨hunknown, hpolicy, handler_of_decodeWord_unassigned hi⟩))
    · exact .inr (.inr (.inr hfault))
  · exact .inr (.inr (.inr ⟨.fetchOutOfRange, rfl⟩))

end Sys2Proof.Machine

/-! ## The stack instructions: PUSH, POP, DUP, SWAP (41_stack.md) -/

namespace Sys2Proof.Machine

variable {s : State} {i : Instr} {o : Outcome}

theorem State.slot_setSlot_same (s : State) (k : Nat) (v : Word) : (s.setSlot k v).slot k = v :=
  Cells.read_write_same _ _ _

/-! An instruction that checks the depth first, as R111, R112 and R113 do: what either answer of the check leaves. -/

theorem exec_of_depthChecked {n : Nat} (he : exec i s = if s.hasDepth n then o else fail .stackUnderflow s)
    (hd : s.base + n ≤ s.top) : exec i s = o :=
  he.trans (if_pos ((s.hasDepth_iff n).mpr hd))

theorem faultsWith_of_depthChecked {n : Nat} (he : exec i s = if s.hasDepth n then o else fail .stackUnderflow s)
    (hd : s.top < s.base + n) : FaultsWith i .stackUnderflow s :=
  faultsWith_of_fail (he.trans (if_neg fun h => Nat.not_le.mpr hd ((s.hasDepth_iff n).mp h)))

/-- Settles O13: PUSH pushes its operand zero-extended, and its only check is the one for room. -/
theorem pushResultAndOverflow : Obligations.PushResultAndOverflow := by
  refine fun imm s => ⟨fun hroom => ?_, faultsWith_of_pushValue (exec_push s imm)⟩
  rw [BitVec.ofNat_toNat]
  exact replacesBy_of_pushValue (exec_push s imm) hroom

/-- Settles O14: POP writes `top` and `ip` only, so the popped slot keeps its value (R33). -/
theorem popResultAndUnderflow : Obligations.PopResultAndUnderflow := by
  refine fun s => ⟨fun hd => ?_, faultsWith_of_depthChecked (exec_pop s)⟩
  have htop : s.top - 1 + 1 = s.top := Nat.sub_add_cancel (by omega)
  exact ⟨_, exec_of_depthChecked (exec_pop s) hd, htop, fun _ => rfl, rfl, rfl, rfl, rfl, rfl, fun _ => rfl⟩

/-- Settles O15: once the depth check passes, DUP is a push of the top value, with a push's own overflow (D14). -/
theorem dupResultAndFaults : Obligations.DupResultAndFaults := by
  intro s
  have hpush (hd : s.base + 1 ≤ s.top) : exec .dup s = pushValue (s.slot (s.top - 1)) s :=
    exec_of_depthChecked (exec_dup s) hd
  exact ⟨fun hd => replacesBy_of_pushValue (hpush hd), faultsWith_of_depthChecked (exec_dup s),
    fun hd => faultsWith_of_pushValue (hpush hd)⟩

/-- Settles O16: with two values in the frame the two slots written are distinct, so the second write of SWAP keeps the
first; SWAP makes no check for room. -/
theorem swapResultAndUnderflow : Obligations.SwapResultAndUnderflow := by
  refine fun s => ⟨fun hd => ?_, faultsWith_of_depthChecked (exec_swap s)⟩
  have hdistinct : s.top - 2 ≠ s.top - 1 := by omega
  refine ⟨_, exec_of_depthChecked (exec_swap s) hd, rfl, ?_, State.slot_setSlot_same _ _ _, fun k h2 h1 => ?_, rfl,
    rfl, rfl, rfl, rfl, fun _ => rfl⟩
  · rw [State.slot_setSlot_ne _ _ hdistinct, State.slot_setSlot_same]
  · rw [State.slot_setSlot_ne _ _ h1, State.slot_setSlot_ne _ _ h2, State.advance_slot]

end Sys2Proof.Machine

/-! ## Integer arithmetic: ADD, SUB, MUL, DIV, MOD, INC, DEC (42_arith.md) -/

namespace Sys2Proof.Machine

variable {s : State} {i : Instr}

/-! R127: the exact results, wrapped, are the word operations that the model computes with. Of sums, quotients and
remainders the library says this (`BitVec.add_def`, `BitVec.udiv_def`, `BitVec.umod_def`). -/

theorem ofInt_toNat_sub_toNat (a b : Word) : BitVec.ofInt 64 ((a.toNat : Int) - b.toNat) = a - b := by
  have hword (w : Word) : BitVec.ofInt 64 w.toNat = w := by
    rw [BitVec.ofInt_natCast, BitVec.ofNat_toNat, BitVec.setWidth_eq]
  rw [Int.sub_eq_add_neg, BitVec.ofInt_add, BitVec.ofInt_neg, hword, hword, BitVec.sub_eq_add_neg]

theorem ofNat_toNat_mul_toNat (a b : Word) : BitVec.ofNat 64 (a.toNat * b.toNat) = a * b := by
  simp only [BitVec.ofNat_mul, BitVec.ofNat_toNat, BitVec.setWidth_eq]

/-- A zero divisor is checked once two values are there (R123, R124, R216). -/
theorem arithmeticError_of_divideTopTwo {f : Word → Word → Word} (he : exec i s = divideTopTwo f s)
    (hd : s.base + 2 ≤ s.top) (h0 : s.slot (s.top - 1) = 0) : FaultsWith i .arithmeticError s :=
  he.trans (if_pos (Bool.and_eq_true_iff.mpr ⟨(s.hasDepth_iff 2).mpr hd, beq_iff_eq.mpr h0⟩))

/-- Settles O19: quotient and remainder of two words fit in a word, so the law of the natural numbers carries over. -/
theorem divAndModSatisfyTheDivisionLaw : Obligations.DivAndModSatisfyTheDivisionLaw := by
  intro s hd h0
  have hdiv := replacesBy_of_divideTopTwo (exec_div s) hd h0
  have hmod := replacesBy_of_divideTopTwo (exec_mod s) hd h0
  rw [← BitVec.udiv_def] at hdiv
  rw [← BitVec.umod_def] at hmod
  refine ⟨_, _, hdiv, hmod, ?_, ?_⟩
  · rw [BitVec.toNat_udiv, BitVec.toNat_umod, Nat.div_add_mod]
  · have hpos : 0 < (s.slot (s.top - 1)).toNat := Nat.pos_of_ne_zero fun h => h0 (BitVec.eq_of_toNat_eq h)
    rw [BitVec.toNat_umod]
    exact Nat.mod_lt _ hpos

/-- Settles O17: each of the three replaces two values by the word operation that is the wrapped exact one. -/
theorem addSubMulWrapTheExactResult : Obligations.AddSubMulWrapTheExactResult := by
  refine fun s => ⟨fun hd => ?_, fun hd => ⟨faultsWith_of_replaceTopTwo (exec_add s) hd,
    faultsWith_of_replaceTopTwo (exec_sub s) hd, faultsWith_of_replaceTopTwo (exec_mul s) hd⟩⟩
  rw [← BitVec.add_def, ofInt_toNat_sub_toNat, ofNat_toNat_mul_toNat]
  exact ⟨replacesBy_of_replaceTopTwo (exec_add s) hd, replacesBy_of_replaceTopTwo (exec_sub s) hd,
    replacesBy_of_replaceTopTwo (exec_mul s) hd⟩

/-- Settles O18, by the three answers of a division: a result, a zero divisor, too few values. -/
theorem divModResultsAndFaults : Obligations.DivModResultsAndFaults := by
  refine fun s => ⟨fun hd h0 => ?_, fun hd h0 => ?_, fun hd => ?_⟩
  · rw [← Nat.mod_eq_sub]
    exact ⟨replacesBy_of_divideTopTwo (exec_div s) hd h0, replacesBy_of_divideTopTwo (exec_mod s) hd h0⟩
  · exact ⟨arithmeticError_of_divideTopTwo (exec_div s) hd h0, arithmeticError_of_divideTopTwo (exec_mod s) hd h0⟩
  · exact ⟨faultsWith_of_divideTopTwo (exec_div s) hd, faultsWith_of_divideTopTwo (exec_mod s) hd⟩

/-- Settles O20: INC and DEC are a sum and a difference with the word 1. -/
theorem incDecResultsAndUnderflow : Obligations.IncDecResultsAndUnderflow := by
  refine fun s => ⟨fun hd => ?_, fun hd => ⟨faultsWith_of_replaceTop (exec_inc s) hd,
    faultsWith_of_replaceTop (exec_dec s) hd⟩⟩
  have hinc (a : Word) : BitVec.ofNat 64 (a.toNat + 1) = a + 1 := (BitVec.add_def a 1).symm
  have hdec (a : Word) : BitVec.ofInt 64 (a.toNat - 1) = a - 1 := ofInt_toNat_sub_toNat a 1
  rw [hinc, hdec]
  exact ⟨replacesBy_of_replaceTop (exec_inc s) hd, replacesBy_of_replaceTop (exec_dec s) hd⟩

end Sys2Proof.Machine

/-! ## The bitwise and shift instructions: AND, OR, XOR, NOT, SHL, SHR (43_bitwise.md) -/

namespace Sys2Proof.Machine

/-- R134: the two modes of SHIFT_MODE determine the count. -/
theorem shiftCount_eq {mode : ShiftMode} {b : Word} {n : Nat} (hfull : mode = .full → n = b.toNat)
    (hmasked : mode = .masked6 → n = b.toNat % 64) : shiftCount mode b = n := by
  cases mode with
  | full => exact (hfull rfl).symm
  | masked6 => exact (hmasked rfl).symm

/-! R134: from a count of 64 on the model answers 0, as the exact product modulo 2^64 and the exact quotient do. -/

theorem shiftLeft_eq_ofNat_mul (mode : ShiftMode) (a b : Word) :
    shiftLeft mode a b = BitVec.ofNat 64 (a.toNat * 2 ^ shiftCount mode b) := by
  have hshift : shiftLeft mode a b = a <<< shiftCount mode b :=
    ite_eq_left_iff.mpr fun h => (BitVec.shiftLeft_eq_zero (Nat.not_lt.mp h)).symm
  apply BitVec.eq_of_toNat_eq
  rw [hshift, BitVec.toNat_shiftLeft, Nat.shiftLeft_eq, BitVec.toNat_ofNat]

theorem shiftRight_eq_ofNat_div (mode : ShiftMode) (a b : Word) :
    shiftRight mode a b = BitVec.ofNat 64 (a.toNat / 2 ^ shiftCount mode b) := by
  have hshift : shiftRight mode a b = a >>> shiftCount mode b :=
    ite_eq_left_iff.mpr fun h => (BitVec.ushiftRight_eq_zero (Nat.not_lt.mp h)).symm
  rw [hshift, ← Nat.shiftRight_eq_div_pow, ← BitVec.toNat_ushiftRight, BitVec.ofNat_toNat, BitVec.setWidth_eq]

/-- Settles O23: the model's cut at a count of 64 loses nothing of the exact shift, whichever mode gave the count. -/
theorem shiftsFollowTheShiftMode : Obligations.ShiftsFollowTheShiftMode := by
  refine fun s n hfull hmasked => ⟨fun hd => ?_, fun hd => ⟨faultsWith_of_replaceTopTwo (exec_shl s) hd,
    faultsWith_of_replaceTopTwo (exec_shr s) hd⟩⟩
  rw [← shiftCount_eq hfull hmasked, ← shiftLeft_eq_ofNat_mul, ← shiftRight_eq_ofNat_div]
  exact ⟨replacesBy_of_replaceTopTwo (exec_shl s) hd, replacesBy_of_replaceTopTwo (exec_shr s) hd⟩

/-- Settles O21: wrapping to a word commutes with the three bitwise operations of the natural numbers. -/
theorem andOrXorResultsAndUnderflow : Obligations.AndOrXorResultsAndUnderflow := by
  refine fun s => ⟨fun hd => ?_, fun hd => ⟨faultsWith_of_replaceTopTwo (exec_and s) hd,
    faultsWith_of_replaceTopTwo (exec_or s) hd, faultsWith_of_replaceTopTwo (exec_xor s) hd⟩⟩
  simp only [BitVec.ofNat_and, BitVec.ofNat_or, BitVec.ofNat_xor, BitVec.ofNat_toNat, BitVec.setWidth_eq]
  exact ⟨replacesBy_of_replaceTopTwo (exec_and s) hd, replacesBy_of_replaceTopTwo (exec_or s) hd,
    replacesBy_of_replaceTopTwo (exec_xor s) hd⟩

/-- Settles O22: the complement of a word is its distance from the largest word, so no wrapping takes place. -/
theorem notResultAndUnderflow : Obligations.NotResultAndUnderflow := by
  refine fun s => ⟨fun hd => ?_, faultsWith_of_replaceTop (exec_not s)⟩
  rw [← BitVec.toNat_not, BitVec.ofNat_toNat, BitVec.setWidth_eq]
  exact replacesBy_of_replaceTop (exec_not s) hd

end Sys2Proof.Machine

/-! ## The comparisons: EQ, LT, GT, LTE, GTE (44_compare.md) -/

namespace Sys2Proof.Machine

/-! R140 to R144: what each comparison of two words says of their unsigned values. -/

@[simp] theorem cmpEq_iff (a b : Word) : cmpEq a b = true ↔ a.toNat = b.toNat :=
  beq_iff_eq.trans BitVec.toNat_inj.symm

@[simp] theorem cmpLt_iff (a b : Word) : cmpLt a b = true ↔ a.toNat < b.toNat := decide_eq_true_iff

@[simp] theorem cmpGt_iff (a b : Word) : cmpGt a b = true ↔ a.toNat > b.toNat := decide_eq_true_iff

@[simp] theorem cmpLe_iff (a b : Word) : cmpLe a b = true ↔ a.toNat ≤ b.toNat := decide_eq_true_iff

@[simp] theorem cmpGe_iff (a b : Word) : cmpGe a b = true ↔ a.toNat ≥ b.toNat := decide_eq_true_iff

/-- An instruction that pushes `bool(a cmp b)`, by the proposition `p` that its comparison decides. -/
theorem replacesBy_of_comparison {s : State} {i : Instr} {cmp : Word → Word → Bool} {p : Prop} [Decidable p]
    (he : exec i s = replaceTopTwo (fun a b => boolWord (cmp a b)) s) (hd : s.base + 2 ≤ s.top)
    (hcmp : cmp (s.slot (s.top - 2)) (s.slot (s.top - 1)) = true ↔ p) : ReplacesBy i 2 (if p then 1 else 0) s := by
  have hbool : boolWord (cmp (s.slot (s.top - 2)) (s.slot (s.top - 1))) = if p then 1 else 0 := if_congr hcmp rfl rfl
  rw [← hbool]
  exact replacesBy_of_replaceTopTwo he hd

/-- Settles O24: each of the five replaces two values by the truth value of its comparison of the unsigned values. -/
theorem comparisonsPushOneOrZero : Obligations.ComparisonsPushOneOrZero := by
  refine fun s => ⟨fun hd => ?_, fun hd => ?_⟩
  · exact ⟨replacesBy_of_comparison (exec_eq s) hd (cmpEq_iff _ _),
      replacesBy_of_comparison (exec_lt s) hd (cmpLt_iff _ _),
      replacesBy_of_comparison (exec_gt s) hd (cmpGt_iff _ _),
      replacesBy_of_comparison (exec_lte s) hd (cmpLe_iff _ _),
      replacesBy_of_comparison (exec_gte s) hd (cmpGe_iff _ _)⟩
  · exact ⟨faultsWith_of_replaceTopTwo (exec_eq s) hd, faultsWith_of_replaceTopTwo (exec_lt s) hd,
      faultsWith_of_replaceTopTwo (exec_gt s) hd, faultsWith_of_replaceTopTwo (exec_lte s) hd,
      faultsWith_of_replaceTopTwo (exec_gte s) hd⟩

end Sys2Proof.Machine

/-! ## Loads and stores: LOAD, STORE, LOAD8, STORE8 (45_loadstore.md) -/

namespace Sys2Proof.Machine

variable {s : State} {i : Instr}

/-- MemRead as the word of the sum of R57. -/
theorem memRead_eq_ofNat_sum (m : Memory) (a n : Nat) :
    memRead m a n = BitVec.ofNat 64 (∑ k ∈ Finset.range n, (Cells.read m (a + k)).toNat * 2 ^ (8 * k)) := by
  rw [memRead, ofBytesLE_readBytes]

/-- Settles O25: each load replaces the address by MemRead's value, written as a sum for LOAD and as a byte for
LOAD8; its faults are the two failing checks, the depth first (D16). -/
theorem loadsReadTheDataSegment : Obligations.LoadsReadTheDataSegment := by
  refine fun s => ⟨fun hd hm => ?_, fun hd hm => ?_, outOfRange_of_loadValue (exec_load s),
    outOfRange_of_loadValue (exec_load8 s),
    fun hd => ⟨faultsWith_of_loadValue (exec_load s) hd, faultsWith_of_loadValue (exec_load8 s) hd⟩⟩
  · have hload := replacesBy_of_loadValue (exec_load s) hd hm
    rwa [memRead_eq_ofNat_sum] at hload
  · have hload := replacesBy_of_loadValue (exec_load8 s) hd hm
    rwa [memRead_one] at hload

/-- A store of `n` bytes that passes its checks: it pops two values, writes its bytes from `dataBase + a` on, and leaves
every other byte, every slot and every register but `top` and `ip` (R151, R153). -/
theorem writesBytes_of_storeValue {n : Nat} (he : exec i s = storeValue n s) (hd : s.base + 2 ≤ s.top)
    (hm : s.cfg.dataBase + (s.slot (s.top - 1)).toNat + n ≤ s.cfg.memSize) :
    ∃ t, exec i s = .next t ∧ t.top + 2 = s.top ∧ SameSlots s t ∧ t.ip = s.ip + 1 ∧ t.base = s.base ∧
      t.status = s.status ∧ t.cfg = s.cfg ∧ t.timeDraws = s.timeDraws ∧
      (∀ k, k < n → t.byte (s.cfg.dataBase + (s.slot (s.top - 1)).toNat + k) =
        (s.slot (s.top - 2)).extractLsb' (8 * k) 8) ∧
      ∀ e, e < s.cfg.dataBase + (s.slot (s.top - 1)).toNat ∨
        s.cfg.dataBase + (s.slot (s.top - 1)).toNat + n ≤ e → t.byte e = s.byte e := by
  have htop : s.top - 2 + 2 = s.top := Nat.sub_add_cancel (by omega)
  exact ⟨_, exec_of_storeValue he hd hm, htop, fun _ => rfl, rfl, rfl, rfl, rfl, rfl,
    fun _ hk => read_memWrite_at s.mem _ _ hk, fun _ hout => read_memWrite_ne s.mem _ n _ hout⟩

/-- Settles O26: STORE is the store of eight bytes and STORE8 the store of one, at offset 0; their faults are the two
failing checks, the depth first (D16). -/
theorem storesWriteOnlyTheirBytes : Obligations.StoresWriteOnlyTheirBytes := by
  refine fun s => ⟨writesBytes_of_storeValue (exec_store s), fun hd hm => ?_, outOfRange_of_storeValue (exec_store s),
    outOfRange_of_storeValue (exec_store8 s),
    fun hd => ⟨faultsWith_of_storeValue (exec_store s) hd, faultsWith_of_storeValue (exec_store8 s) hd⟩⟩
  obtain ⟨t, hnext, htop, hslots, hip, hbase, hstatus, hcfg, hdraws, hbytes, hframe⟩ :=
    writesBytes_of_storeValue (exec_store8 s) hd hm
  exact ⟨t, hnext, htop, hslots, hip, hbase, hstatus, hcfg, hdraws, hbytes 0 Nat.one_pos,
    fun e hne => hframe e (by omega)⟩

end Sys2Proof.Machine

/-! ## Jumps and conditional branches (46_branch.md) -/

namespace Sys2Proof.Machine

variable {s : State} {i : Instr} {n : Nat} {taken : Bool}

/-! R161 to R164: what each one-value condition says of the unsigned value. -/

@[simp] theorem isZero_iff (a : Word) : isZero a = true ↔ a.toNat = 0 :=
  beq_iff_eq.trans BitVec.toNat_inj.symm

theorem toNat_bit63 (a : Word) : (a.extractLsb' 63 1).toNat = a.toNat / 2 ^ 63 := by
  rw [BitVec.extractLsb'_toNat, Nat.shiftRight_eq_div_pow]
  exact Nat.mod_eq_of_lt (by omega)

theorem toNat_bits62to0 (a : Word) : (a.extractLsb' 0 63).toNat = a.toNat % 2 ^ 63 := by
  rw [BitVec.extractLsb'_toNat, Nat.shiftRight_zero]

/-- Bit 63 is the quotient by `2^63` and the bits below it are the remainder. -/
theorem bitTest_iff (a : Word) (b : BitVec 1) :
    (a.extractLsb' 63 1 == b && a.extractLsb' 0 63 != 0) = true ↔
      a.toNat / 2 ^ 63 = b.toNat ∧ a.toNat % 2 ^ 63 ≠ 0 := by
  rw [Bool.and_eq_true_iff, beq_iff_eq, bne_iff_ne, ← BitVec.toNat_inj, ← BitVec.toNat_ne_iff_ne, toNat_bit63,
    toNat_bits62to0]
  rfl

@[simp] theorem isNegative_iff (a : Word) :
    isNegative a = true ↔ a.toNat / 2 ^ 63 = 1 ∧ a.toNat % 2 ^ 63 ≠ 0 := bitTest_iff a 1

@[simp] theorem isPositive_iff (a : Word) :
    isPositive a = true ↔ a.toNat / 2 ^ 63 = 0 ∧ a.toNat % 2 ^ 63 ≠ 0 := bitTest_iff a 0

/-- A branch that its frame holds the values for, by the proposition `p` that its condition decides: all `n` values are
popped, taken or not. -/
theorem popsTo_of_branch {p : Prop} [Decidable p] (he : exec i s = popAndJump n taken s) (hd : s.base + n ≤ s.top)
    (hp : taken = true ↔ p) : PopsTo i n (if p then s.slot (s.top - 1) else s.ip + 1) s := by
  rw [← if_congr hp rfl rfl]
  exact popsTo_of_popAndJump he hd

/-- A branch on the negated condition (JNZ, JNE). -/
theorem popsTo_of_branch_not {p : Prop} [Decidable p] (he : exec i s = popAndJump n (!taken) s)
    (hd : s.base + n ≤ s.top) (hp : taken = true ↔ p) :
    PopsTo i n (if ¬p then s.slot (s.top - 1) else s.ip + 1) s :=
  popsTo_of_branch he hd (by rw [Bool.not_eq_true', ← Bool.not_eq_true, hp])

/-- Settles O27: JMP is the branch that is always taken. -/
theorem jmpResultAndUnderflow : Obligations.JmpResultAndUnderflow :=
  fun s => ⟨popsTo_of_popAndJump (exec_jmp s), faultsWith_of_popAndJump (exec_jmp s)⟩

/-- Settles O28: both branch on the zero test, JNZ on its negation. -/
theorem jzJnzBranchOnZero : Obligations.JzJnzBranchOnZero :=
  fun s => ⟨
    fun hd => ⟨popsTo_of_branch (exec_jz s) hd (isZero_iff _), popsTo_of_branch_not (exec_jnz s) hd (isZero_iff _)⟩,
    fun hd => ⟨faultsWith_of_popAndJump (exec_jz s) hd, faultsWith_of_popAndJump (exec_jnz s) hd⟩⟩

/-- Settles O29: the bit tests read as quotient and remainder by `2^63`; for `2^63` the remainder is zero. -/
theorem jnJpBranchOnTheBitTest : Obligations.JnJpBranchOnTheBitTest :=
  fun s => ⟨
    fun hd => ⟨popsTo_of_branch (exec_jn s) hd (isNegative_iff _), popsTo_of_branch (exec_jp s) hd (isPositive_iff _)⟩,
    fun hd => ⟨faultsWith_of_popAndJump (exec_jn s) hd, faultsWith_of_popAndJump (exec_jp s) hd⟩⟩

/-- Settles O30: each of the six branches on its comparison of the unsigned values, JNE on the negation of JE's. -/
theorem compareBranchesAreUnsigned : Obligations.CompareBranchesAreUnsigned := by
  refine fun s => ⟨fun hd => ?_, fun hd => ?_⟩
  · exact ⟨popsTo_of_branch (exec_je s) hd (cmpEq_iff _ _), popsTo_of_branch_not (exec_jne s) hd (cmpEq_iff _ _),
      popsTo_of_branch (exec_jlt s) hd (cmpLt_iff _ _), popsTo_of_branch (exec_jgt s) hd (cmpGt_iff _ _),
      popsTo_of_branch (exec_jle s) hd (cmpLe_iff _ _), popsTo_of_branch (exec_jge s) hd (cmpGe_iff _ _)⟩
  · exact ⟨faultsWith_of_popAndJump (exec_je s) hd, faultsWith_of_popAndJump (exec_jne s) hd,
      faultsWith_of_popAndJump (exec_jlt s) hd, faultsWith_of_popAndJump (exec_jgt s) hd,
      faultsWith_of_popAndJump (exec_jle s) hd, faultsWith_of_popAndJump (exec_jge s) hd⟩

/-- Settles O39: JMP does not check its target, and the state it commits keeps the configuration, so the next fetch is
out of range at the target (R56). -/
theorem unfetchableJumpFaultsOneStepLater : Obligations.UnfetchableJumpFaultsOneStepLater := by
  intro s hr hf hjmp hd htarget
  obtain ⟨hpops, -⟩ := jmpResultAndUnderflow s
  obtain ⟨t, hexec, htop, -, hip, -, hstatus, hcfg, -⟩ := hpops hd
  have hstep : step s = .next t := by
    rw [step_of_fetchable hr hf, State.fetchedWord, hjmp, hexec]
  have hrunning : t.status = .running := hstatus.trans hr
  have hnext : step t = fail .fetchOutOfRange t := step_of_unfetchable hrunning (by rwa [hcfg, hip])
  exact ⟨t, hstep, hrunning, hip, htop, by rw [hnext, fail_eq, hip]⟩

end Sys2Proof.Machine

/-! ## Environment queries: TIME, SPACE (47_env.md) -/

namespace Sys2Proof.Machine

/-- What TIME completes with: the push of its draw, in the state that has taken the draw. Taking it leaves the check for
room as it was. -/
theorem exec_time_of_room {s : State} (hroom : s.top < s.cfg.stackCap) :
    exec .time s = .next ((((s.setTimeDraws (s.timeDraws + 1)).advance).setSlot s.top s.timeDraw).setTop (s.top + 1)) :=
  have hcheck : s.hasRoom = true := s.hasRoom_iff.mpr hroom
  calc exec .time s
      = pushValue s.timeDraw (s.setTimeDraws (s.timeDraws + 1)) := if_pos hcheck
    _ = _ := if_pos hcheck

/-- Settles O31: TIME writes the slot at `top`, `top`, `ip` and the draw counter; without room it takes no draw. -/
theorem timePushesAFreshDraw : Obligations.TimePushesAFreshDraw := by
  refine fun s => ⟨fun hroom => ?completes, fun hfull => ?overflows⟩
  case completes =>
    exact ⟨_, exec_time_of_room hroom, rfl, State.slot_setSlot_same _ _ _, fun _ hk => State.slot_setSlot_ne _ _ hk,
      rfl, rfl, rfl, rfl, rfl, fun _ => rfl⟩
  case overflows =>
    have hcheck : ¬ s.hasRoom = true := fun h => Nat.not_le.mpr (s.hasRoom_iff.mp h) hfull
    exact faultsWith_of_fail (if_neg hcheck)

/-- Settles O32: SPACE pushes `dataBase`, which is the sum of the two sizes, and its only check is the one for room. -/
theorem spaceResultAndOverflow : Obligations.SpaceResultAndOverflow :=
  fun s => ⟨replacesBy_of_pushValue (exec_space s), faultsWith_of_pushValue (exec_space s)⟩

end Sys2Proof.Machine

/-! ## The call-frame protocol: CALL, RET (48_call.md) -/

namespace Sys2Proof.Machine

variable {s t u : State} {b : Nat}

/-- CALL writes no slot at or above the new `top` (R186). -/
theorem read_callSlots_of_ge (s : State) (n : Nat) {k : Nat} (h : s.top + 2 + n ≤ k) :
    Cells.read (callSlots s n) k = s.slot k := by
  rw [callSlots, read_copySlots_ne _ _ _ _ (by omega), Cells.read_write_ne _ _ (by omega),
    Cells.read_write_ne _ _ (by omega), State.slot]

/-- CALL's depth check, the count itself included (R185). -/
theorem callDepth_iff (s : State) :
    (s.hasDepth 1 && s.hasDepth (s.callCount + 1)) = true ↔ s.base + (s.callCount + 1) ≤ s.top := by
  rw [Bool.and_eq_true, State.hasDepth_iff, State.hasDepth_iff]
  exact ⟨And.right, fun h => ⟨by omega, h⟩⟩

/-- What CALL completes with (R186). -/
theorem exec_call_of_fits {target : Operand} (hdepth : s.base + (s.callCount + 1) ≤ s.top)
    (hfit : s.top + 2 + s.callCount ≤ s.cfg.stackCap) :
    exec (.call target) s =
      .next ((((s.setSlots (callSlots s s.callCount)).setBase (s.top + 2)).setTop (s.top + 2 + s.callCount)).setIp
        (zextOperand target)) :=
  (if_pos ((callDepth_iff s).mpr hdepth)).trans (if_pos hfit)

/-- Settles O33: the new frame is read off the slots that CALL writes, and the two faults are its failing checks, the
depth first (D16). -/
theorem callBuildsTheFrame : Obligations.CallBuildsTheFrame := by
  intro target s n hn
  obtain rfl : n = s.callCount := hn
  refine ⟨fun hdepth hfit => ?completes, fun hdepth => ?invalid, fun hdepth hfull => ?overflows⟩
  case completes =>
    have harguments : ∀ j, j < s.callCount →
        Cells.read (callSlots s s.callCount) (s.top + 2 + j) = s.slot (s.top + 2 - 3 - s.callCount + j) := by
      intro j hj
      rw [read_callSlots_argument s (by omega) hj, show s.top + 2 - 3 = s.top - 1 by omega]
    have hkept : ∀ k, k < s.top ∨ s.top + 2 + s.callCount ≤ k →
        Cells.read (callSlots s s.callCount) k = s.slot k := fun k hk =>
      hk.elim (read_callSlots_of_lt s _) (read_callSlots_of_ge s _)
    exact ⟨_, exec_call_of_fits hdepth hfit, read_callSlots_returnIp s _, read_callSlots_savedBase s _, rfl, rfl,
      harguments, hkept, (BitVec.ofNat_toNat 64 target).symm, rfl, rfl, rfl, fun _ => rfl⟩
  case invalid =>
    have hcheck : ¬ s.base + (s.callCount + 1) ≤ s.top := by omega
    exact faultsWith_of_fail (if_neg fun h => hcheck ((callDepth_iff s).mp h))
  case overflows =>
    exact faultsWith_of_fail ((if_pos ((callDepth_iff s).mpr hdepth)).trans (if_neg (Nat.not_le.mpr hfull)))

/-- What RET completes with in a frame that is not empty (R187). -/
theorem exec_ret_of_value (hret : s.canReturn = true) (hvalue : s.base < s.top) :
    exec .ret s =
      .next ((((s.setSlot s.unwoundTop (s.operand 1)).setTop (s.unwoundTop + 1)).setBase s.savedBase).setIp
        s.returnIp) :=
  (if_pos hret).trans (if_pos hvalue)

/-- What RET completes with in an empty frame (R187). -/
theorem exec_ret_of_empty (hret : s.canReturn = true) (hempty : s.top ≤ s.base) :
    exec .ret s = .next (((s.setTop s.unwoundTop).setBase s.savedBase).setIp s.returnIp) :=
  (if_pos hret).trans (if_neg (Nat.not_lt.mpr hempty))

/-- Settles O34: RET's three checks are the three conditions, and its updates write one slot or none. -/
theorem retUnwindsTheFrame : Obligations.RetUnwindsTheFrame := by
  intro s n saved hn hsaved
  obtain rfl : n = s.frameCount := hn
  obtain rfl : saved = s.savedBase := hsaved
  refine ⟨fun hbase hcount hlink hvalue => ?value, fun hbase hcount hlink hempty => ?empty, fun hbad => ?invalid⟩
  case value =>
    have hret : s.canReturn = true := (State.canReturn_iff s).mpr ⟨hbase, hcount, hlink⟩
    exact ⟨_, exec_ret_of_value hret hvalue, rfl, rfl, rfl, State.slot_setSlot_same s _ _,
      fun _ hk => State.slot_setSlot_ne s _ hk, rfl, rfl, rfl, fun _ => rfl⟩
  case empty =>
    have hret : s.canReturn = true := (State.canReturn_iff s).mpr ⟨hbase, hcount, hlink⟩
    exact ⟨_, exec_ret_of_empty hret hempty, rfl, rfl, rfl, fun _ => rfl, rfl, rfl, rfl, fun _ => rfl⟩
  case invalid =>
    refine faultsWith_of_fail (if_neg fun h => ?_)
    obtain ⟨hbase, hcount, hlink⟩ := (State.canReturn_iff s).mp h
    omega

/-- Settles O54: a frame of the chain passes RET's checks, so RET completes, with a value or without. -/
theorem retFailsOnlyInTheOutermostFrame : Obligations.RetFailsOnlyInTheOutermostFrame := by
  intro s hinv hframe
  obtain ⟨hbase, hcount, hlink, -⟩ := FrameChain_of_ne_zero hinv.chain hframe
  obtain ⟨hvalue, hempty, -⟩ := retUnwindsTheFrame s _ _ rfl rfl
  obtain hlt | hle := Nat.lt_or_ge s.base s.top
  · obtain ⟨t, hx, htop, hsaved, hip, -, -, hstatus, -⟩ := hvalue hbase hcount hlink hlt
    exact ⟨t, hx, hstatus, by rw [htop, hsaved]; exact Nat.le_succ_of_le hlink, by omega, hip⟩
  · obtain ⟨t, hx, htop, hsaved, hip, -, hstatus, -⟩ := hempty hbase hcount hlink hle
    exact ⟨t, hx, hstatus, by rw [htop, hsaved]; exact hlink, by omega, hip⟩

/-! R188: a run that stays at or above a frame keeps every slot below it, and so that frame's metadata. -/

/-- RET writes no slot below the frame that it returns to: the value returned lands at or above the saved `base`. -/
theorem slot_kept_below_of_ret (hx : exec .ret s = .next t) {k : Nat} (hk : k < t.base) : t.slot k = s.slot k := by
  rcases execRet_cases hx with ⟨hret, -, rfl⟩ | ⟨-, -, rfl⟩ | ⟨-, rfl⟩
  · obtain ⟨-, -, hlink⟩ := (State.canReturn_iff s).mp hret
    exact State.slot_setSlot_ne s _ (hk.trans_le hlink).ne
  · rfl
  · rfl

/-- A step keeps every slot that lies below the frame before it and the frame after it. -/
theorem slot_kept_below_of_step (hbt : s.base ≤ s.top) (hs : Steps s t) {k : Nat} (hks : k < s.base)
    (hkt : k < t.base) : t.slot k = s.slot k := by
  obtain ⟨-, ⟨-, hx⟩ | ⟨-, rfl⟩⟩ := step_cases hs
  · by_cases hi : decodeWord s.cfg.opcodes s.fetchedWord = .ret
    · exact slot_kept_below_of_ret (hi ▸ hx) hkt
    · exact slotsBelowBaseAreKept _ s t hi hbt hx k hks
  · rfl

/-- What a run at or above `b` keeps, by induction on the run. -/
theorem RunsAbove.keeps (h : RunsAbove b s t) (hinv : s.Inv) :
    t.Inv ∧ b ≤ t.base ∧ ∀ k, k < b → t.slot k = s.slot k := by
  induction h with
  | here above => exact ⟨hinv, above, fun _ _ => rfl⟩
  | step t u _ last above ih =>
    obtain ⟨htinv, hbase, hslots⟩ := ih
    refine ⟨everyStepKeepsTheInvariant t u htinv last, above, fun k hk => ?_⟩
    exact (slot_kept_below_of_step htinv.baseTop last (hk.trans_le hbase) (hk.trans_le above)).trans (hslots k hk)

/-- The callee's frame after any run above it: the count, the return address and the link that CALL wrote, and every
slot of the caller. -/
theorem frame_of_call_after_run {target : Operand} (hinv : s.Inv) (hdepth : s.base + (s.callCount + 1) ≤ s.top)
    (hfit : s.top + 2 + s.callCount ≤ s.cfg.stackCap) (hcall : exec (.call target) s = .next t)
    (hrun : RunsAbove t.base t u) (hback : u.base = t.base) :
    u.base = s.top + 2 ∧ (u.slot (u.base - 3)).toNat = s.callCount ∧ u.slot (u.base - 2) = s.ip + 1 ∧
      (u.slot (u.base - 1)).toNat = s.base ∧ ∀ k, k < s.top → u.slot k = s.slot k := by
  obtain ⟨hcompletes, -, -⟩ := callBuildsTheFrame target s _ rfl
  obtain ⟨_, hcall', hreturn, hsaved, hbase, -, -, hcaller, -⟩ := hcompletes hdepth hfit
  cases hcall.symm.trans hcall'
  obtain ⟨-, -, hkept⟩ := hrun.keeps (hinv.of_exec hcall)
  rw [hbase] at hback hkept
  have hslots : ∀ k, k < s.top → u.slot k = s.slot k := fun k hk =>
    (hkept k (by omega)).trans (hcaller k (.inl hk))
  refine ⟨hback, ?count, ?returnIp, ?link, hslots⟩
  case count => rw [hback, show s.top + 2 - 3 = s.top - 1 by omega, hslots _ (by omega)]; rfl
  case returnIp => rw [hback, Nat.add_sub_cancel, hkept _ (by omega), hreturn]
  case link =>
    have hword : s.base < 2 ^ 64 := (hinv.baseTop.trans hinv.topCap).trans_lt hinv.config.capWord
    rw [hback, show s.top + 2 - 1 = s.top + 1 by omega, hkept _ (by omega), hsaved, BitVec.toNat_ofNat,
      Nat.mod_eq_of_lt hword]

/-- Settles O55: the metadata that CALL wrote lie below the callee's frame, so they are what RET reads. -/
theorem matchedCallAndRetRestoreTheCaller : Obligations.MatchedCallAndRetRestoreTheCaller := by
  intro s s1 s2 target n hinv hn hdepth hfit hcall hrun hback
  obtain rfl : n = s.callCount := hn
  obtain ⟨hframe, hcount, hreturn, hlink, hcaller⟩ := frame_of_call_after_run hinv hdepth hfit hcall hrun hback
  obtain ⟨hvalue, hempty, -⟩ := retUnwindsTheFrame s2 _ _ hcount.symm hlink.symm
  have hunwound : s2.base - 3 - s.callCount = s.top - 1 - s.callCount := by omega
  rw [hunwound] at hvalue hempty
  obtain hlt | hle := Nat.lt_or_ge s2.base s2.top
  · obtain ⟨t, hret, htop, hbase, hip, hresult, hslots, -⟩ := hvalue (by omega) (by omega) (by omega) hlt
    refine ⟨t, hret, hbase, hip.trans hreturn, by rw [htop, if_pos hlt], fun k hk => ?_, fun _ => hresult⟩
    exact (hslots k hk.ne).trans (hcaller k (by omega))
  · have hnone : ¬ s2.base < s2.top := Nat.not_lt.mpr hle
    obtain ⟨t, hret, htop, hbase, hip, hslots, -⟩ := hempty (by omega) (by omega) (by omega) hle
    refine ⟨t, hret, hbase, hip.trans hreturn, by rw [htop, if_neg hnone, Nat.add_zero], fun k hk => ?_,
      fun hlt => absurd hlt hnone⟩
    exact (hslots k).trans (hcaller k (by omega))

end Sys2Proof.Machine

/-! ## Halt and unknown opcodes: HLT and the row `(unassigned)` (49_halt.md) -/

namespace Sys2Proof.Machine

/-- Settles O35: HLT writes `ip` and the status alone, and a Halted core has no step (R96). -/
theorem hltHaltsAndKeepsTheRest : Obligations.HltHaltsAndKeepsTheRest := by
  refine fun s => ⟨exec_hlt s, stoppedCoreHasNoStep _ fun h => ?_⟩
  exact nomatch (h : Status.halted .hlt = .running)

/-- Settles O36, for each policy of R201. -/
theorem unknownOpcodeFollowsThePolicy : Obligations.UnknownOpcodeFollowsThePolicy := by
  refine fun b s => ⟨fun hhalt => ?_, fun hfault => faultsWith_of_fail ?_⟩
  · rw [exec_unassigned, execUnassigned, hhalt]
    rfl
  · rw [exec_unassigned, execUnassigned, hfault]

end Sys2Proof.Machine

/-! ## Faults: the committed state, and who raises which kind (60_exceptions.md) -/

namespace Sys2Proof.Machine

variable {s t : State} {i : Instr} {k : FaultKind}

/-- If `t` is Faulted, it is `s` with that fault raised (R214). -/
def FaultsPrecisely (s t : State) : Prop :=
  ∀ k a, t.status = .faulted k a → a = s.ip ∧ t = s.raise k

theorem faultsPrecisely_raise (s : State) (k : FaultKind) : FaultsPrecisely s (s.raise k) := by
  intro k' a h
  cases h
  exact ⟨rfl, rfl⟩

theorem faultsPrecisely_of_no_fault (h : ∀ k a, t.status ≠ .faulted k a) : FaultsPrecisely s t :=
  fun k a hf => absurd hf (h k a)

theorem not_faulted_of_running (h : t.status = .running) (k : FaultKind) (a : Word) : t.status ≠ .faulted k a :=
  fun hf => nomatch h.symm.trans hf

theorem not_faulted_of_halted {r : HaltReason} (h : t.status = .halted r) (k : FaultKind) (a : Word) :
    t.status ≠ .faulted k a :=
  fun hf => nomatch h.symm.trans hf

/-- Of the forms that a next state can take, only the raised fault is Faulted. -/
theorem faultsPrecisely_of_exec (hr : s.status = .running) (hx : exec i s = .next t) : FaultsPrecisely s t := by
  have runs {t : State} (h : t.status = s.status) : FaultsPrecisely s t :=
    faultsPrecisely_of_no_fault (not_faulted_of_running (h.trans hr))
  have halts {t : State} {r : HaltReason} (h : t.status = .halted r) : FaultsPrecisely s t :=
    faultsPrecisely_of_no_fault (not_faulted_of_halted h)
  exact exec_cases (P := FaultsPrecisely s) hx
    (fault := faultsPrecisely_raise s) (push := fun _ _ => runs rfl) (replaceOne := fun _ _ => runs rfl)
    (replaceTwo := fun _ _ => runs rfl) (popOne := fun _ => runs rfl) (swapTwo := fun _ => runs rfl)
    (jump := fun _ _ _ _ => runs rfl) (store := fun _ _ _ => runs rfl) (time := fun _ => runs rfl)
    (call := fun _ _ _ _ => runs rfl) (returnValue := fun _ _ _ => runs rfl)
    (returnNothing := fun _ _ _ => runs rfl) (halt := fun _ => halts rfl) (unknown := fun _ _ _ => halts rfl)

/-- Settles O42: a step executes an instruction or raises the fetch fault. -/
theorem faultsArePrecise : Obligations.FaultsArePrecise := by
  intro s t k a hs hfault
  obtain ⟨hr, ⟨-, hx⟩ | ⟨-, rfl⟩⟩ := step_cases hs
  · exact faultsPrecisely_of_exec hr hx k a hfault
  · exact faultsPrecisely_raise s _ k a hfault

/-! R210: the kinds that each shared operation can raise, by its own checks. -/

/-- A next state that the outcome answers is Faulted only with a kind that the table lists for `i`. -/
def RaisesOnly (i : Instr) (o : Outcome) : Prop :=
  ∀ t k a, o = .next t → t.status = .faulted k a → mayRaise i k

theorem raisesOnly_next (h : ∀ k a, t.status ≠ .faulted k a) : RaisesOnly i (.next t) := by
  rintro _ k a ⟨⟩ hf
  exact absurd hf (h k a)

theorem raisesOnly_running (h : t.status = .running) : RaisesOnly i (.next t) :=
  raisesOnly_next (not_faulted_of_running h)

theorem raisesOnly_halted {r : HaltReason} (h : t.status = .halted r) : RaisesOnly i (.next t) :=
  raisesOnly_next (not_faulted_of_halted h)

theorem raisesOnly_fail (h : mayRaise i k) : RaisesOnly i (fail k s) := by
  rintro _ k' a ⟨⟩ hf
  cases hf
  exact h

theorem raisesOnly_ite {c : Prop} [Decidable c] {p q : Outcome} (hp : RaisesOnly i p) (hq : RaisesOnly i q) :
    RaisesOnly i (if c then p else q) := by
  split
  · exact hp
  · exact hq

theorem execUnassigned_raisesOnly (b : Byte) (s : State) : RaisesOnly (.unassigned b) (execUnassigned b s) := by
  unfold execUnassigned
  split
  · exact raisesOnly_halted rfl
  · exact raisesOnly_fail rfl

section Operations

variable (hr : s.status = .running)
include hr

theorem pushValue_raisesOnly (v : Word) (ho : mayRaise i .stackOverflow) : RaisesOnly i (pushValue v s) :=
  raisesOnly_ite (raisesOnly_running hr) (raisesOnly_fail ho)

theorem replaceTop_raisesOnly (f : Word → Word) (hu : mayRaise i .stackUnderflow) : RaisesOnly i (replaceTop f s) :=
  raisesOnly_ite (raisesOnly_running hr) (raisesOnly_fail hu)

theorem replaceTopTwo_raisesOnly (f : Word → Word → Word) (hu : mayRaise i .stackUnderflow) :
    RaisesOnly i (replaceTopTwo f s) :=
  raisesOnly_ite (raisesOnly_running hr) (raisesOnly_fail hu)

theorem divideTopTwo_raisesOnly (f : Word → Word → Word) (hu : mayRaise i .stackUnderflow)
    (ha : mayRaise i .arithmeticError) : RaisesOnly i (divideTopTwo f s) :=
  raisesOnly_ite (raisesOnly_fail ha) (replaceTopTwo_raisesOnly hr f hu)

theorem popAndJump_raisesOnly (n : Nat) (taken : Bool) (hu : mayRaise i .stackUnderflow) :
    RaisesOnly i (popAndJump n taken s) := by
  refine raisesOnly_ite (raisesOnly_running ?_) (raisesOnly_fail hu)
  cases taken <;> exact hr

theorem loadValue_raisesOnly (n : Nat) (hu : mayRaise i .stackUnderflow) (hm : ∀ a, mayRaise i (.memoryOutOfRange a)) :
    RaisesOnly i (loadValue n s) :=
  raisesOnly_ite (raisesOnly_ite (raisesOnly_running hr) (raisesOnly_fail (hm _))) (raisesOnly_fail hu)

theorem storeValue_raisesOnly (n : Nat) (hu : mayRaise i .stackUnderflow)
    (hm : ∀ a, mayRaise i (.memoryOutOfRange a)) : RaisesOnly i (storeValue n s) :=
  raisesOnly_ite (raisesOnly_ite (raisesOnly_running hr) (raisesOnly_fail (hm _))) (raisesOnly_fail hu)

/-- Each arm's faults are in the table's row of its instruction. -/
theorem exec_raisesOnly (i : Instr) : RaisesOnly i (exec i s) := by
  cases i
  case push | space => exact pushValue_raisesOnly hr _ ⟨_, rfl, by decide⟩
  case pop | swap => exact raisesOnly_ite (raisesOnly_running hr) (raisesOnly_fail ⟨_, rfl, by decide⟩)
  case dup =>
    exact raisesOnly_ite (pushValue_raisesOnly hr _ ⟨_, rfl, by decide⟩) (raisesOnly_fail ⟨_, rfl, by decide⟩)
  case time =>
    have hdrawn : (s.setTimeDraws (s.timeDraws + 1)).status = .running := hr
    exact raisesOnly_ite (pushValue_raisesOnly (i := .time) hdrawn _ ⟨_, rfl, by decide⟩)
      (raisesOnly_fail ⟨_, rfl, by decide⟩)
  case call =>
    exact raisesOnly_ite (raisesOnly_ite (raisesOnly_running hr) (raisesOnly_fail ⟨_, rfl, by decide⟩))
      (raisesOnly_fail rfl)
  case ret =>
    exact raisesOnly_ite (raisesOnly_ite (raisesOnly_running hr) (raisesOnly_running hr)) (raisesOnly_fail rfl)
  case hlt => exact raisesOnly_halted rfl
  case unassigned b => exact execUnassigned_raisesOnly b s
  case inc | dec | not =>
    simp only [exec_inc, exec_dec, exec_not]
    exact replaceTop_raisesOnly hr _ ⟨_, rfl, by decide⟩
  case div => exact divideTopTwo_raisesOnly hr _ ⟨_, rfl, by decide⟩ (.inl rfl)
  case mod => exact divideTopTwo_raisesOnly hr _ ⟨_, rfl, by decide⟩ (.inr rfl)
  case load | load8 => exact loadValue_raisesOnly hr _ ⟨_, rfl, by decide⟩ fun _ => ⟨_, rfl, by decide⟩
  case store | store8 => exact storeValue_raisesOnly hr _ ⟨_, rfl, by decide⟩ fun _ => ⟨_, rfl, by decide⟩
  case jmp | jz | jnz | jn | jp | je | jne | jlt | jgt | jle | jge =>
    exact popAndJump_raisesOnly hr _ _ ⟨_, rfl, by decide⟩
  all_goals
    simp only [exec_add, exec_sub, exec_mul, exec_and, exec_or, exec_xor, exec_shl, exec_shr, exec_eq, exec_lt,
      exec_gt, exec_lte, exec_gte]
    exact replaceTopTwo_raisesOnly hr _ ⟨_, rfl, by decide⟩

end Operations

/-- Settles O43, by the checks that each instruction makes. -/
theorem instructionsRaiseOnlyTheirFaults : Obligations.InstructionsRaiseOnlyTheirFaults :=
  fun i _ t k a hr hx hfault => exec_raisesOnly hr i t k a hx hfault

end Sys2Proof.Machine

/-! ## The host's calls: construct, append, run, introspect (60_exceptions.md, 70_reset_and_hazards.md) -/

namespace Sys2Proof.Machine

variable {s t : State} {vm : Vm}

/-- Settles O56: `segmentSum` is the sum that the statement writes out. -/
theorem constructChecksTheMemorySize : Obligations.ConstructChecksTheMemorySize :=
  fun _ => ⟨fun hsmall => if_pos hsmall,
    fun hfits => ⟨_, if_neg (Nat.not_lt.mpr hfits), rfl, rfl, rfl, fun _ => rfl⟩⟩

/-! What `append` answers in each state of the VM (R234). -/

theorem append_of_room (w : Word) (hc : vm.core = none) (hroom : vm.program.length < vm.cfg.romWords) :
    vm.append w = .next { vm with program := vm.program ++ [w] } := by
  simp only [Vm.append, hc, if_neg (Nat.not_le.mpr hroom)]

theorem append_of_full (w : Word) (hc : vm.core = none) (hfull : vm.cfg.romWords ≤ vm.program.length) :
    vm.append w = .fault .programTooLarge := by
  simp only [Vm.append, hc, if_pos hfull]

theorem append_of_started (w : Word) (hc : vm.core ≠ none) : vm.append w = .refused .appendAfterRun := by
  obtain ⟨s, hs⟩ := Option.ne_none_iff_exists'.mp hc
  simp only [Vm.append, hs]

/-- Settles O57: the capacity is `romWords` (D23), and `append` looks at the core first (D22). -/
theorem appendStopsAtRomCapacity : Obligations.AppendStopsAtRomCapacity :=
  fun _ w => ⟨append_of_room w, append_of_full w, append_of_started w⟩

/-- A second `run()` is refused (R235, D22). -/
theorem start_of_started (hc : vm.core ≠ none) : vm.start = .refused .runAgain := by
  obtain ⟨s, hs⟩ := Option.ne_none_iff_exists'.mp hc
  simp only [Vm.start, hs]

/-- Settles O58: the launch state is a run start over the loaded image, which is big-endian (R54). -/
theorem runStartsFromTheLoadedImage : Obligations.RunStartsFromTheLoadedImage := by
  refine fun vm => ⟨fun hc => ?_, start_of_started⟩
  obtain ⟨himage, hrest⟩ := programImageIsBigEndian vm.program vm.mem
  exact ⟨vm.launchState, start_of_fresh hc, rfl, rfl, rfl, rfl, rfl, himage, hrest⟩

/-! ## The loop of `run()` -/

/-- The loop stays where there is no step: in a Halted or Faulted state (R96). -/
theorem runFor_of_stopped (hs : s.status ≠ .running) (k : Nat) : State.runFor k s = s := by
  cases k with
  | zero => rfl
  | succ k =>
    have hstep : step s = .fault .notRunning := if_neg fun h => hs (s.isRunning_iff.mp h)
    rw [State.runFor, hstep]

/-- A turn of the loop on a Running state is a step. -/
theorem runFor_succ_of_step (hs : Steps s t) (k : Nat) : State.runFor (k + 1) s = State.runFor k t := by
  rw [State.runFor, hs]

/-- Once the loop has stopped, further turns change nothing. -/
theorem runFor_add_of_stopped {j : Nat} (hstop : (State.runFor j s).status ≠ .running) (k : Nat) :
    State.runFor (j + k) s = State.runFor j s := by
  induction j generalizing s with
  | zero => rw [Nat.zero_add]; exact runFor_of_stopped hstop k
  | succ j ih =>
    by_cases hr : s.status = .running
    · obtain ⟨t, hs⟩ := step_answersNext hr
      rw [runFor_succ_of_step hs] at hstop
      rw [Nat.succ_add, runFor_succ_of_step hs, runFor_succ_of_step hs, ih hstop]
    · rw [runFor_of_stopped hr, runFor_of_stopped hr]

/-- Two stops of the loop from one state are the same state. -/
theorem runFor_stop_unique {j k : Nat} (hj : (State.runFor j s).status ≠ .running)
    (hk : (State.runFor k s).status ≠ .running) : State.runFor j s = State.runFor k s :=
  calc State.runFor j s
      = State.runFor (j + k) s := (runFor_add_of_stopped hj k).symm
    _ = State.runFor (k + j) s := by rw [Nat.add_comm]
    _ = State.runFor k s := runFor_add_of_stopped hk j

/-- Settles O59: both returns are stops of the loop from the launch state, and each outcome is its stop's status. -/
theorem runOutcomeIsUnique : Obligations.RunOutcomeIsUnique := by
  intro vm o o' t t' h h'
  obtain ⟨-, j, rfl, ho⟩ := returns_iff.mp h
  obtain ⟨-, k, rfl, ho'⟩ := returns_iff.mp h'
  obtain ⟨rfl, hstop⟩ := stopOutcome_eq_some_iff.mp ho
  obtain ⟨rfl, hstop'⟩ := stopOutcome_eq_some_iff.mp ho'
  have hsame := runFor_stop_unique hstop hstop'
  exact ⟨congrArg State.status hsame, hsame, rfl, hstop⟩

/-! ## Introspection of a core that has started (R236, R220) -/

section Started

variable (hc : vm.core = some s)
include hc

theorem inspectSlot_of_live {k : Nat} (x : Word) (hk : k < vm.cfg.stackCap) (hlive : k < s.top) :
    vm.inspectSlot k x = .next (s.slot k) := by
  simp only [Vm.inspectSlot, hc, if_pos hk, if_pos hlive]

theorem inspectSlot_of_dead {k : Nat} (x : Word) (hk : k < vm.cfg.stackCap) (hdead : s.top ≤ k) :
    vm.inspectSlot k x = .next x := by
  simp only [Vm.inspectSlot, hc, if_pos hk, if_neg (Nat.not_lt.mpr hdead)]

theorem inspectBytes_of_inRange {i n : Nat} (hrange : i + n ≤ vm.cfg.memSize) :
    ∃ bs, vm.inspectBytes i n = .next bs ∧ bs.length = n ∧
      ∀ (j : Nat) (h : j < bs.length), bs[j] = s.byte (i + j) := by
  refine ⟨s.mem.readBytes i n, ?_, s.mem.readBytes_length i n, fun j hj => s.mem.getElem_readBytes i hj⟩
  simp only [Vm.inspectBytes, Vm.currentMem, hc, if_pos hrange]

theorem inspectRegisters_of_started (g : Registers) : vm.inspectRegisters g = ⟨s.top, s.base, s.ip⟩ := by
  simp only [Vm.inspectRegisters, hc]

end Started

/-- A run whose loop has stopped returns the status that it stopped with (R220, R235). -/
theorem run_of_stopped {turns : Nat} (hc : vm.core = none) (ht : State.runFor turns vm.launchState = t)
    (hstop : t.status ≠ .running) : vm.run turns = .next ({ vm with core := some t }, some t.status) := by
  rw [run_of_fresh turns hc, ht, stopOutcome_eq_some_iff.mpr ⟨rfl, hstop⟩]

/-- Settles O60: introspection reads the VM's core, and `run()` leaves the state that its loop stopped in there. -/
theorem introspectionReadsSlotsAndBytes : Obligations.IntrospectionReadsSlotsAndBytes := by
  refine ⟨fun vm s k i n x g hc => ?started, fun vm t turns hc ht hstop => ?afterRun⟩
  case started =>
    exact ⟨inspectSlot_of_live hc x, inspectSlot_of_dead hc x, inspectBytes_of_inRange hc,
      inspectRegisters_of_started hc g⟩
  case afterRun =>
    have hrun := run_of_stopped hc ht hstop
    have hcore : ({ vm with core := some t } : Vm).core = some t := rfl
    exact ⟨_, hrun, ⟨turns, hrun⟩, hcore, rfl, fun k i n x g =>
      ⟨inspectSlot_of_live hcore x, inspectBytes_of_inRange hcore, inspectRegisters_of_started hcore g⟩⟩

end Sys2Proof.Machine

/-! ## Encode, then decode; and the words of the assembler (30_encoding.md) -/

namespace Sys2Proof

/-- An instruction of the table is its mnemonic's instruction with its operand (R74). -/
theorem Instr.eq_toInstr {i : Instr} {m : Mnemonic} (h : i.mnemonic = some m) : i = m.toInstr i.operand := by
  cases i <;> cases h <;> rfl

theorem Instr.eq_unassigned {i : Instr} (h : i.mnemonic = none) : ∃ b, i = .unassigned b := by
  cases i
  case unassigned b => exact ⟨b, rfl⟩
  all_goals exact nomatch h

/-- The word of a mnemonic's instruction decodes to that instruction (R73, R74). -/
theorem decodeWord_encode_toInstr {o : OpcodeMap} (ho : o.Injective) (m : Mnemonic) (p : Operand) :
    decodeWord o (encode o (m.toInstr p)) = m.toInstr p := by
  rw [encode, Mnemonic.opcodeByte_toInstr, decodeWord_packFields_byteOf ho]
  refine (Instr.eq_toInstr ?_).symm
  exact m.mnemonic_toInstr p

/-- A word with an opcode byte that has no handler decodes to the `(unassigned)` row of that byte (R77). -/
theorem decodeWord_encode_unassigned {o : OpcodeMap} {b : Byte} (hwf : (Instr.unassigned b).wf o = true) :
    decodeWord o (encode o (.unassigned b)) = .unassigned b := by
  have hnone : handler o b = none := (handler_eq_none_iff o b).mpr ((Instr.wf_unassigned_iff o b).mp hwf)
  rw [encode, Instr.opcodeByte, decodeWord_packFields, hnone]
  rfl

/-- Decode of encode, on words. -/
theorem decodeWord_encode {o : OpcodeMap} {i : Instr} (ho : o.Injective) (hwf : i.wf o = true) :
    decodeWord o (encode o i) = i := by
  cases hm : i.mnemonic with
  | none =>
    obtain ⟨b, rfl⟩ := Instr.eq_unassigned hm
    exact decodeWord_encode_unassigned hwf
  | some m =>
    rw [Instr.eq_toInstr hm]
    exact decodeWord_encode_toInstr ho m _

/-- The byte decoder on the 8 big-endian bytes of a word, whatever follows them (R55, R71). -/
theorem decodeBytes_bytesBE_append (o : OpcodeMap) (w : Word) (rest : List Byte) :
    decodeBytes o (bytesBE w ++ rest) = .ok (decodeWord o w, rest) := by
  have hlen : (bytesBE w).length = 8 := Machine.bytesBE_length w
  have henough : ¬ (bytesBE w ++ rest).length < 8 := by
    rw [List.length_append]
    omega
  rw [decodeBytes, if_neg henough, List.take_left' hlen, List.drop_left' hlen, Machine.wordBE_bytesBE]

/-- Settles O2: fetch's bytes give back the word, and the word gives back the instruction. -/
theorem decodeOfEncodeIsTheInstruction : Obligations.DecodeOfEncodeIsTheInstruction := by
  intro o i rest ho hwf
  rw [encodeBytes, decodeBytes_bytesBE_append, decodeWord_encode ho hwf]

/-- Settles O6: ten closed decodings under the default table (D1). -/
theorem defaultNumberingDecodesWrittenWords : Obligations.DefaultNumberingDecodesWrittenWords := by
  refine ⟨?_, ?_, ?_, ?_, ?_, ?_, ?_, ?_, ?_, ?_⟩ <;> decide

end Sys2Proof

namespace Sys2Proof.Machine

/-- A line assembles to the instruction of its mnemonic (R79, R80). -/
theorem assembleInstr_eq_toInstr {labels : List (List Char × Nat)} {m : Mnemonic} {op : Option OperandText} {i : Instr}
    (h : assembleInstr labels m op = .ok i) : ∃ p, i = m.toInstr p := by
  unfold assembleInstr at h
  split at h
  · split at h
    · cases h
    · cases h; exact ⟨_, rfl⟩
  · split at h
    · split at h
      · split at h
        · cases h; exact ⟨_, rfl⟩
        · cases h
      · cases h
    · cases h

/-- Every instruction that the lines assemble to has a mnemonic: none is a word without a handler. -/
theorem mem_assembleLines {labels : List (List Char × Nat)} {lines : List SourceLine} {is : List Instr}
    (h : assembleLines labels lines = .ok is) : ∀ i ∈ is, ∃ m p, i = Mnemonic.toInstr p m := by
  induction lines generalizing is with
  | nil =>
    cases h
    exact fun i hi => nomatch hi
  | cons l ls ih =>
    rw [assembleLines] at h
    split at h
    · exact ih h
    · next m op _ =>
      split at h
      · cases h
      · next i hi =>
        cases hrest : assembleLines labels ls with
        | error e => rw [hrest] at h; cases h
        | ok js =>
          rw [hrest] at h
          cases h
          obtain ⟨p, hp⟩ := assembleInstr_eq_toInstr hi
          exact List.forall_mem_cons.mpr ⟨⟨m, p, hp⟩, ih hrest⟩

/-- The words that a text assembles to are the encodings of its lines' instructions. -/
theorem mem_assemble {o : OpcodeMap} {src : List Char} {ws : List Word} (h : assemble o src = .ok ws) :
    ∀ w ∈ ws, ∃ m p, w = encode o (Mnemonic.toInstr p m) := by
  rw [assemble] at h
  split at h
  · cases h
  · next lines _ =>
    dsimp only at h
    split at h
    · cases his : assembleLines (labelTable 0 lines) lines with
      | error e => rw [his] at h; cases h
      | ok is =>
        rw [his] at h
        cases h
        intro w hw
        obtain ⟨i, hi, rfl⟩ := List.mem_map.mp hw
        obtain ⟨m, p, rfl⟩ := mem_assembleLines his i hi
        exact ⟨m, p, rfl⟩
    · cases h

/-- Settles O7: each word is the encoding of a mnemonic's instruction, which decoding gives back. -/
theorem assembledWordsAreInstructions : Obligations.AssembledWordsAreInstructions := by
  intro o src ws ho h w hw
  obtain ⟨m, p, rfl⟩ := mem_assemble h w hw
  rw [decodeWord_encode_toInstr ho, Mnemonic.mnemonic_toInstr]
  exact ⟨Option.some_ne_none m, rfl⟩

end Sys2Proof.Machine
